-- ==== Sys2Proof/Word.lean ====
section
/-! DEFINITION. The bit vectors the spec treats as bits (spec/00_scope.md R10: a byte is 8 bits, a word is 16 bits). -/

namespace Sys2Proof

/-- A byte: what `fb` holds and what the bus shifts out (R10). -/
abbrev Byte := BitVec 8

/-- A word of the command port and of `STATUS` (R10, R55). -/
abbrev Word := BitVec 16

/-- A color: 16 bits in the panel's native channel order, never converted (spec/10_state.md R36). -/
abbrev Color := BitVec 16

end Sys2Proof
end

