-- ==== Sys2Proof/Config.lean ====
section
/-! DEFINITION. The parameters of spec/00_scope.md R8 as one plain record, the values R8 leaves OPEN and the draws of the
bus environment (R15) as opaque constants, and the palette of spec/10_state.md R35, which is host data. -/

namespace Sys2Proof

/-- `PIXEL_BYTE_ORDER` (spec/20_memory.md R41). -/
inductive ByteOrder where
  | le
  | be
  deriving DecidableEq, Repr

/-- `GLYPH_BIT_ORDER` (spec/40_rasterizer.md R78). -/
inductive BitOrder where
  | msbFirst
  | lsbFirst
  deriving DecidableEq, Repr

/-- The 8 row bytes of one glyph, row 0 the top (spec/10_state.md R30, spec/30_encoding.md R68). -/
structure GlyphRows where
  r0 : Byte
  r1 : Byte
  r2 : Byte
  r3 : Byte
  r4 : Byte
  r5 : Byte
  r6 : Byte
  r7 : Byte
  deriving DecidableEq, Repr, Inhabited

/-- One entry `(cmd, data)` of `INIT_ROM`; R108 of spec/42_panel.md bounds `data` to 255 bytes. -/
structure RomEntry where
  cmd   : Byte
  data  : List Byte
  short : data.length ≤ 255
  deriving DecidableEq, Repr

/-- `INIT_ROM`: configuration entries, then the two terminal ones (spec/42_panel.md R107, R108).
A list of fewer than two entries has no such form, so it is refused by the type. -/
structure InitRom where
  setup     : List RomEntry
  exitSleep : RomEntry
  displayOn : RomEntry
  deriving DecidableEq, Repr

/-- The panel command bytes (spec/30_encoding.md R65). -/
structure PanelCmds where
  caset  : Byte
  raset  : Byte
  ramwr  : Byte
  slpout : Byte
  dispon : Byte
  deriving DecidableEq, Repr

/-- The parameters of R8. `fbReset` lists `FB_RESET` from offset 0 on; past its end a byte is 0x00, R8's reference value. -/
structure Params where
  w         : Nat
  h         : Nat
  initRom   : InitRom
  glyphRom  : List (Word × GlyphRows)
  byteOrder : ByteOrder
  bitOrder  : BitOrder
  cmds      : PanelCmds
  fbReset   : List Byte
  deriving DecidableEq, Repr

/-- `FB_BYTES = W*H*2` (R8). -/
def Params.fbBytes (p : Params) : Nat := p.w * p.h * 2

/-- What framebuffer byte `o` holds after a block reset, `FB_RESET` (R8, spec/70_reset_and_hazards.md R141).
It is what an unlisted byte of the memory list reads as. -/
def Params.fbResetByte (p : Params) (o : Nat) : Byte := p.fbReset.getD o 0x00#8

/-- `CHARSET`: '/', '0' to '9', ':' (spec/40_rasterizer.md R75). -/
def charset : List Word :=
  [0x2F#16, 0x30#16, 0x31#16, 0x32#16, 0x33#16, 0x34#16, 0x35#16, 0x36#16, 0x37#16, 0x38#16, 0x39#16, 0x3A#16]

/-- The one glyph the source gives, '8' (spec/40_rasterizer.md R77). -/
def glyphEight : GlyphRows := ⟨0x3E#8, 0x63#8, 0x63#8, 0x3E#8, 0x63#8, 0x63#8, 0x63#8, 0x3E#8⟩

/-- The answer of the bus environment to one frame (R15, spec/42_panel.md R105): `ok` is `BusOk() = true`;
`fault k` is `BusOk() = false` with the prefix draw `k` (cut to the frame's length where it is longer). -/
inductive BusDraw where
  | ok
  | fault (sent : Nat)
  deriving DecidableEq, Repr, Inhabited

/-- FREE VALUE (log 3): the bitmaps of the eleven glyphs the spec leaves OPEN (R77; "A model must not invent"). -/
opaque Config.openGlyph : Word → GlyphRows

/-- FREE VALUE (log 3): the entries of `INIT_ROM` before the two terminal ones, OPEN (spec/42_panel.md R107). -/
opaque Config.openInitSetup : List RomEntry

/-- FREE VALUE (log 5): the bus environment's answer to the frame of this number, under no law (R105). -/
opaque Config.freeBusDraw : Nat → BusDraw

/-- The default panel command bytes (R65). -/
def PanelCmds.reference : PanelCmds :=
  { caset := 0x2A#8, raset := 0x2B#8, ramwr := 0x2C#8, slpout := 0x11#8, dispon := 0x29#8 }

/-- The reference configuration (R8); what R8 leaves OPEN with no reference value is a free value. -/
def Params.reference : Params where
  w := 320
  h := 240
  initRom :=
    { setup := Config.openInitSetup
      exitSleep := ⟨0x11#8, [], by simp⟩
      displayOn := ⟨0x29#8, [], by simp⟩ }
  glyphRom := charset.map fun ch => (ch, if ch = 0x38#16 then glyphEight else Config.openGlyph ch)
  byteOrder := .le
  bitOrder := .msbFirst
  cmds := PanelCmds.reference
  fbReset := []

/-! The palette is data the host passes as color arguments, not state (R35, R39); no step reads it. -/

/-- The blue, red and green fields of a color, most significant field first (R36). -/
def Color.ofChannels (blue : BitVec 5) (red : BitVec 6) (green : BitVec 5) : Color := blue ++ red ++ green

namespace Palette
def black  : Color := 0x0000#16
def white  : Color := 0xFFFF#16
def red    : Color := 0x07E0#16
def green  : Color := 0x001F#16
def blue   : Color := 0xF800#16
def cyan   : Color := 0xF81F#16
def yellow : Color := 0x07FF#16
/-- `PALETTE_PINK`, OPEN (R35). -/
opaque pink : Color
/-- `PALETTE_DIMGRAY`, OPEN (R35). -/
opaque dimGray : Color
end Palette

end Sys2Proof
end

