-- ==== Sys2Proof/Syntax.lean ====
section
/-! DEFINITION. The operations of spec/opcode_table.json as one inductive, and the names of their opcodes. -/

namespace Sys2Proof

/-- The opcodes of the map (spec/30_encoding.md R61). -/
inductive Opcode where
  | init
  | setPixel
  | fillRect
  | fill
  | drawText
  | showPanel
  deriving DecidableEq, Repr

/-- One operation with its operands as R57 of spec/30_encoding.md reads them: coordinates, sizes and scales are
integers, colors and character codes 16-bit values; `n` is the length of `chars`. -/
inductive Instr where
  /-- INIT (spec/42_panel.md R109). -/
  | init
  /-- SET_PIXEL x, y, color (spec/41_framebuffer.md R92). -/
  | setPixel (x y : Int) (color : Color)
  /-- FILL_RECT x, y, w, h, color (R93). -/
  | fillRect (x y w h : Int) (color : Color)
  /-- FILL color (R94). -/
  | fill (color : Color)
  /-- DRAW_TEXT and DRAW_TEXT.M x, y, color, sx, sy, chars (spec/40_rasterizer.md R82). -/
  | drawText (mirror : Bool) (x y : Int) (color : Color) (sx sy : Int) (chars : List Word)
  /-- SHOW (spec/42_panel.md R114 to R118). -/
  | showPanel
  deriving DecidableEq, Repr

/-- The opcode an operation is sent under. -/
def Instr.opcode : Instr → Opcode
  | .init => .init
  | .setPixel _ _ _ => .setPixel
  | .fillRect _ _ _ _ _ => .fillRect
  | .fill _ => .fill
  | .drawText _ _ _ _ _ _ _ => .drawText
  | .showPanel => .showPanel

end Sys2Proof
end

