-- ==== Sys2Proof/Machine/State.lean ====
section
/-! DEFINITION. The state of the block as plain data: every piece of spec/10_state.md R21, the parameters, and the model's
own fields for the host and the bus environment; the reset state of R37; the reasons a step can stop. -/

namespace Sys2Proof.Machine

/-- `STATUS.STATE` (R22, R23): the value 3 is never held, so it has no constructor. -/
inductive PanelState where
  | uninit
  | initializing
  | ready
  deriving DecidableEq, Repr

/-- `STATUS.RESULT` (R22, spec/60_exceptions.md R125): the codes 4 to 7 are never read, so they have no constructor. -/
inductive ResultCode where
  | ok
  | busFault
  | badState
  | illegal
  deriving DecidableEq, Repr

/-- `PHASE` (R31). -/
inductive Phase where
  | idle
  | resetPulse
  | rom
  | caset
  | raset
  | ramwr
  | pixels
  | done
  deriving DecidableEq, Repr

/-- The levels of the five output lines, `true` for 1 (R26). -/
structure Lines where
  csN  : Bool
  dc   : Bool
  rstN : Bool
  sclk : Bool
  mosi : Bool
  deriving DecidableEq, Repr

/-- The reset levels (R26, R37). -/
def Lines.reset : Lines := { csN := true, dc := false, rstN := true, sclk := false, mosi := false }

/-- The lines whose edges `TRACE` records (R27). -/
inductive Line where
  | csN
  | dc
  | rstN
  deriving DecidableEq, Repr

/-- An event of `TRACE` (R27): `Pin(L, b)` or `Byte(v)`. -/
inductive Event where
  | pin (l : Line) (b : Bool)
  | byte (v : Byte)
  deriving DecidableEq, Repr

/-- One level written on the serial lines inside `Shift` (spec/42_panel.md R103). -/
inductive Wave where
  | mosi (b : Bool)
  | sclk (b : Bool)
  deriving DecidableEq, Repr

/-- The sequencer's position (R31); `op = none` is IDLE. -/
structure Seq where
  op      : Option Opcode
  phase   : Phase
  romIdx  : Nat
  byteIdx : Nat
  deriving DecidableEq, Repr

/-- IDLE and 0, after reset and after every `finish` (R31). -/
def Seq.idle : Seq := { op := none, phase := .idle, romIdx := 0, byteIdx := 0 }

/-- The rasterizer's working registers (R32). -/
structure Raster where
  penX    : Int
  charIdx : Nat
  row     : Nat
  col     : Nat
  deriving DecidableEq, Repr

/-- DESIGN CHOICE (log 10): the value the working registers have while they are not live (R37: "not defined").
Unsafe to rest a claim on; DRAW_TEXT writes each before it reads it. -/
def Raster.notLive : Raster := { penX := 0, charIdx := 0, row := 0, col := 0 }

/-- The packet latch (R33, spec/30_encoding.md R73). -/
structure Latch where
  hdr     : Word
  args    : List Word
  rxcount : Nat
  deriving DecidableEq, Repr

/-- The latch at reset (R37); `HDR` has no value there: DESIGN CHOICE 0 (log 11), unsafe to rest a claim on. -/
def Latch.reset : Latch := { hdr := 0#16, args := [], rxcount := 0 }

/-- The bus environment (spec/00_scope.md R15, spec/42_panel.md R105), the MODEL's own field (log 5): the answers to the
first frames since reset, and how many frames have been answered. -/
structure BusEnv where
  script : List BusDraw
  taken  : Nat
  deriving DecidableEq, Repr

/-- The answer to frame `n`: the script's, and past its end a free value. -/
def BusEnv.drawAt (e : BusEnv) (n : Nat) : BusDraw := (e.script[n]?).getD (Config.freeBusDraw n)

/-- A host register access (spec/20_memory.md R46, R47): byte offset from `LCDC_BASE` and width in bits. -/
inductive HostAccess where
  | read (offset width : Nat)
  | write (offset width : Nat) (value : Word)
  deriving DecidableEq, Repr

/-- When the host makes an access (the MODEL's own, log 7): while no operation is in progress; while one is, wherever it
stands; or while one is, once it is past its acceptance check (spec/20_memory.md R46: a `STATUS` read "may happen at any
time"). -/
inductive Moment where
  | idle
  | accepted
  | underWay
  deriving DecidableEq, Repr

/-- What the outside does, the MODEL's own (log 7): an access at its moment, or the platform's reset input
(spec/70_reset_and_hazards.md R140). -/
inductive Input where
  | access (a : HostAccess) (moment : Moment)
  | reset
  deriving DecidableEq, Repr

/-- The state: R21's list, then the parameters (log 1) and the model's own fields. -/
structure State where
  /-- `STATUS.STATE` (R23). -/
  panel    : PanelState
  /-- `STATUS.BUSY` (R24). -/
  busy     : Bool
  /-- `STATUS.RESULT` (R25). -/
  result   : ResultCode
  /-- `CS_N`, `DC`, `RST_N`, `SCLK`, `MOSI` (R26). -/
  lines    : Lines
  /-- `TRACE`, oldest event first (R27). -/
  trace    : List Event
  /-- `fb` (R28), in the canonical form of Machine/Memory.lean. -/
  fb       : List Host.Cell
  /-- `OP`, `PHASE`, `ROM_IDX`, `BYTE_IDX` (R31). -/
  seq      : Seq
  /-- `PEN_X`, `CHAR_IDX`, `ROW`, `COL` (R32). -/
  raster   : Raster
  /-- `HDR`, `arg`, `RXCOUNT` (R33). -/
  latch    : Latch
  /-- The parameters, `INIT_ROM` and `GLYPH_ROM` among them (R29, R30, spec/00_scope.md R8); no step writes them. -/
  cfg      : Params
  /-- The bus environment's answers (model's own, log 5). -/
  bus      : BusEnv
  /-- The host's accesses and resets still to come, oldest first (model's own, log 7). -/
  inputs   : List Input
  /-- What the last host read returned (model's own, log 12). -/
  hostRead : Option Word
  deriving DecidableEq, Repr

/-- Why a step faults. The spec has no trap (spec/60_exceptions.md R133): no state of a run faults. -/
inductive Fault where
  /-- Raised by the sequencer where `BUSY` is 1 and the latch does not hold a packet of its own length; the receive machine
  makes no such state (R73). Safe: the model stops where the spec describes nothing. -/
  | latchNotAPacket
  deriving DecidableEq, Repr

/-- Why the model refuses a step. -/
inductive Refusal where
  /-- Raised by an arm of `exec` that has no meaning yet (none here). Safe. -/
  | notModelled (mnemonic : String)
  /-- Raised by `step` on a configuration the spec tells a model to refuse (spec/00_scope.md R9, spec/40_rasterizer.md R77,
  spec/42_panel.md R108). Safe. -/
  | badConfiguration
  /-- Raised by a host access that is not 16 bits wide at an even offset (spec/20_memory.md R44: "A model refuses any other
  width or alignment"). Safe. -/
  | hostAccessShape
  deriving DecidableEq, Repr

/-- The reset state of the block (R37) under parameters `p`, with the environment `bus`, the inputs still to come and the
last reply as given: those are not the block's state. -/
def State.resetWith (p : Params) (bus : BusEnv) (inputs : List Input) (hostRead : Option Word) : State where
  panel := .uninit
  busy := false
  result := .ok
  lines := Lines.reset
  trace := []
  fb := []
  seq := Seq.idle
  raster := Raster.notLive
  latch := Latch.reset
  cfg := p
  bus := bus
  inputs := inputs
  hostRead := hostRead

/-- The machine right after reset: the reference configuration (R8), no input yet, every bus answer free. -/
def State.reset : State := State.resetWith Params.reference { script := [], taken := 0 } [] none

end Sys2Proof.Machine
end

