-- ==== Sys2Proof/Machine/Flags.lean ====
section
/-! DEFINITION. The only flags of the block are the fields of `STATUS` (spec/10_state.md R34); here the word a host reads. -/

namespace Sys2Proof.Machine

/-- The two bits of `STATUS.STATE` (R22). -/
def panelBits : PanelState → BitVec 2
  | .uninit => 0#2
  | .initializing => 1#2
  | .ready => 2#2

/-- The three bits of `STATUS.RESULT` (R22, spec/60_exceptions.md R125). -/
def resultBits : ResultCode → BitVec 3
  | .ok => 0#3
  | .busFault => 1#3
  | .badState => 2#3
  | .illegal => 3#3

/-- The word a read of `STATUS` returns: `{0b000000000, RESULT[2:0], 0b0, BUSY, STATE[1:0]}` (spec/42_panel.md R121). -/
def statusWord (s : State) : Word :=
  0#9 ++ resultBits s.result ++ 0#1 ++ BitVec.ofBool s.busy ++ panelBits s.panel

end Sys2Proof.Machine
end

