-- ==== Sys2Proof/Machine/Operands.lean ====
section
/-! DEFINITION. Operand forms: how an argument word is read, which byte of a value is which, where a pixel lies, when it is
clipped, and how a glyph bit is tested. -/

namespace Sys2Proof.Machine

/-- `sext_16` (spec/00_scope.md R11). -/
def sext16 (v : Word) : Int := v.toInt

/-- `zext_16` (R11). -/
def zext16 (v : Word) : Nat := v.toNat

/-- `v[7:0]`. -/
def loByte (v : Word) : Byte := v.extractLsb' 0 8

/-- `v[15:8]`. -/
def hiByte (v : Word) : Byte := v.extractLsb' 8 8

/-- `Be16(v) = [v[15:8], v[7:0]]` (spec/42_panel.md R113). -/
def be16 (v : Nat) : List Byte := [hiByte (BitVec.ofNat 16 v), loByte (BitVec.ofNat 16 v)]

/-- `Be16(0) ++ Be16(n-1)`: the window of a whole axis of `n` pixels, end inclusive (R113). -/
def axisWindow (n : Nat) : List Byte := be16 0 ++ be16 (n - 1)

/-- `InBounds(x, y)` on integers (spec/41_framebuffer.md R90). -/
def inBounds (p : Params) (x y : Int) : Bool := decide (0 ≤ x ∧ x < p.w ∧ 0 ≤ y ∧ y < p.h)

/-- `PixOff(x, y) = (y*W + x)*2` (spec/20_memory.md R41). -/
def pixOff (p : Params) (x y : Nat) : Nat := (y * p.w + x) * 2

/-- The byte a pixel write leaves at `PixOff` (R41). -/
def firstByte (o : ByteOrder) (c : Color) : Byte :=
  match o with
  | .le => loByte c
  | .be => hiByte c

/-- The byte a pixel write leaves at `PixOff + 1` (R41). -/
def secondByte (o : ByteOrder) (c : Color) : Byte :=
  match o with
  | .le => hiByte c
  | .be => loByte c

/-- The value two stored bytes stand for (`PixRead`, R41). -/
def joinBytes (o : ByteOrder) (first second : Byte) : Color :=
  match o with
  | .le => second ++ first
  | .be => first ++ second

/-- `INIT_ROM` as one list, in the order INIT walks it (spec/10_state.md R29, spec/42_panel.md R111). -/
def romEntries (r : InitRom) : List RomEntry := r.setup ++ [r.exitSleep, r.displayOn]

/-- Row `r` of a glyph, row 0 the top (spec/40_rasterizer.md R77). -/
def glyphRow (g : GlyphRows) (r : Nat) : Byte :=
  match r with
  | 0 => g.r0
  | 1 => g.r1
  | 2 => g.r2
  | 3 => g.r3
  | 4 => g.r4
  | 5 => g.r5
  | 6 => g.r6
  | _ => g.r7

/-- `Bit(rowbyte, col)`, column 0 the leftmost (R78). -/
def glyphBit (o : BitOrder) (rowbyte : Byte) (col : Nat) : Bool :=
  match o with
  | .msbFirst => rowbyte.getLsbD (7 - col)
  | .lsbFirst => rowbyte.getLsbD col

/-- `GlyphLookup(ch)` (R76): `none` is the spec's NONE. -/
def glyphLookup (p : Params) (ch : Word) : Option GlyphRows :=
  if charset.contains ch then (p.glyphRom.find? fun e => e.1 == ch).map Prod.snd else none

/-- The destination column of glyph column `col` (R81). -/
def destColumn (mirror : Bool) (col : Nat) : Nat := if mirror then 7 - col else col

end Sys2Proof.Machine
end

