-- ==== Sys2Proof/Machine/Memory.lean ====
section
/-! DEFINITION. The framebuffer as a list of cells in one canonical form, and the named operations over it: byte read and
write, `MemWrite`, `PixRead` (spec/20_memory.md R41), `PlotPixel` and `FillRectClip` (spec/41_framebuffer.md R91, R97). -/

namespace Sys2Proof.Machine

/-- The byte at offset `a`; an offset the list does not hold reads as `FB_RESET` there. -/
def fbRead (p : Params) (a : Nat) : List Host.Cell → Byte
  | [] => p.fbResetByte a
  | (b, u) :: m => if a = b then u else fbRead p a m

/-- Store one byte, keeping the canonical form: a byte equal to what an unlisted offset reads as is not listed. -/
def fbWrite (p : Params) (a : Nat) (v : Byte) : List Host.Cell → List Host.Cell
  | [] => if v = p.fbResetByte a then [] else [(a, v)]
  | (b, u) :: m =>
    if a < b then (if v = p.fbResetByte a then (b, u) :: m else (a, v) :: (b, u) :: m)
    else if a = b then (if v = p.fbResetByte a then m else (a, v) :: m)
    else (b, u) :: fbWrite p a v m

/-- The canonical form from offset `lo` on: offsets strictly rising, inside the framebuffer, no entry equal to what an
unlisted offset reads as. -/
def fbWfFrom (p : Params) (lo : Nat) : List Host.Cell → Bool
  | [] => true
  | (a, v) :: m => decide (lo ≤ a) && decide (a < p.fbBytes) && (v != p.fbResetByte a) && fbWfFrom p (a + 1) m

/-- The canonical form of the framebuffer list. -/
def fbWf (p : Params) (m : List Host.Cell) : Bool := fbWfFrom p 0 m

/-- `MemWrite(o, 2, v)` (R41). -/
def memWrite (p : Params) (o : Nat) (v : Color) (m : List Host.Cell) : List Host.Cell :=
  fbWrite p (o + 1) (secondByte p.byteOrder v) (fbWrite p o (firstByte p.byteOrder v) m)

/-- `PixRead(x, y)` (R41). -/
def pixRead (p : Params) (x y : Nat) (m : List Host.Cell) : Color :=
  joinBytes p.byteOrder (fbRead p (pixOff p x y) m) (fbRead p (pixOff p x y + 1) m)

/-- `[fb[0], .., fb[FB_BYTES-1]]` (spec/42_panel.md R116). -/
def fbBytesOf (p : Params) (m : List Host.Cell) : List Byte := (List.range p.fbBytes).map fun o => fbRead p o m

/-- `PlotPixel(x, y, c)` (R91). -/
def plotPixel (p : Params) (x y : Int) (c : Color) (m : List Host.Cell) : List Host.Cell :=
  if inBounds p x y then memWrite p (pixOff p x.toNat y.toNat) c m else m

/-- Do `f` for each number of `[lo, hi)` in rising order; nothing where the interval is empty. -/
def forRange (lo hi : Nat) (f : Nat → List Host.Cell → List Host.Cell) (m : List Host.Cell) : List Host.Cell :=
  (List.range' lo (hi - lo)).foldl (fun m k => f k m) m

/-- The first coordinate inside the panel of an interval that starts at `v`: `max(v, 0)`. -/
def clipLo (v : Int) : Nat := (max v 0).toNat

/-- The end of an interval `[v, v+len)` inside a panel of `n` pixels: `min(v+len, n)`, 0 where that is negative. -/
def clipHi (v len : Int) (n : Nat) : Nat := (min (v + len) n).toNat

/-- `FillRectClip(x, y, w, h, c)`, over the clipped rectangle R97 allows a model to compute directly. -/
def fillRectClip (p : Params) (x y w h : Int) (c : Color) (m : List Host.Cell) : List Host.Cell :=
  forRange (clipLo y) (clipHi y h p.h)
    (fun j => forRange (clipLo x) (clipHi x w p.w) (fun i => plotPixel p i j c)) m

/-- R97's own loop, over the whole footprint, each pixel clipped by itself: what `fillRectClip` must agree with. -/
def fillRectLoop (p : Params) (x y w h : Int) (c : Color) (m : List Host.Cell) : List Host.Cell :=
  forRange 0 h.toNat (fun dj => forRange 0 w.toNat (fun di => plotPixel p (x + di) (y + dj) c)) m

/-- FILL's loop: `for o in 0, 2, .., FB_BYTES-2: MemWrite(o, 2, c)` (spec/41_framebuffer.md R94). -/
def fillAll (p : Params) (c : Color) (m : List Host.Cell) : List Host.Cell :=
  forRange 0 (p.w * p.h) (fun k => memWrite p (2 * k) c) m

end Sys2Proof.Machine
end

