-- ==== Sys2Proof/Machine/Params.lean ====
section
/-! DEFINITION. The configurations a model must refuse: spec/00_scope.md R9, spec/40_rasterizer.md R77, spec/42_panel.md R108. -/

namespace Sys2Proof.Machine

/-- R9: `1 <= W, H <= 32767`. -/
def sizeOk (p : Params) : Bool := decide (1 ≤ p.w ∧ p.w ≤ 32767 ∧ 1 ≤ p.h ∧ p.h ≤ 32767)

/-- R77: one entry per code of `CHARSET`, none outside it, and '8' as the source gives it. -/
def glyphRomOk (p : Params) : Bool :=
  charset.all (fun ch => (p.glyphRom.filter fun e => e.1 == ch).length == 1) &&
  p.glyphRom.all (fun e => charset.contains e.1) &&
  glyphLookup p 0x38#16 == some glyphEight

/-- R108: the last two entries are `(CMD_SLPOUT, [])` and `(CMD_DISPON, [])`.
Its other two conditions, at least 2 entries and at most 255 data bytes, are in the types `InitRom` and `RomEntry`. -/
def initRomOk (p : Params) : Bool :=
  p.initRom.exitSleep.cmd == p.cmds.slpout && p.initRom.exitSleep.data.isEmpty &&
  p.initRom.displayOn.cmd == p.cmds.dispon && p.initRom.displayOn.data.isEmpty

/-- The configurations the model runs. -/
def configOk (p : Params) : Bool := sizeOk p && glyphRomOk p && initRomOk p

end Sys2Proof.Machine
end

