-- ==== Sys2Proof/Machine/Ops.lean ====
section
/-! DEFINITION. The operations every meaning is written over: `finish` (the spec's counterpart of taking an exception), the
output lines, `Shift`, `Frame` and `SendCmd` (spec/42_panel.md R102, R103, R106), and the updates of single fields. -/

namespace Sys2Proof.Machine

/-- `finish(code)` (spec/00_scope.md R14, spec/60_exceptions.md R133): the only exit from an operation. It writes RESULT,
clears BUSY, clears `arg` (spec/10_state.md R33) and returns the sequencer to IDLE (R31). The rasterizer's registers are
not kept (R32; log 10 for the value they are left at). There is no return from it (R134). -/
def finish (code : ResultCode) (s : State) : State :=
  { s with
    result := code
    busy := false
    seq := Seq.idle
    raster := Raster.notLive
    latch := { s.latch with args := [] } }

/-- `STATUS.STATE <- v` (R23). -/
def setPanel (v : PanelState) (s : State) : State := { s with panel := v }

/-- `PHASE <- v` (R31). -/
def setPhase (v : Phase) (s : State) : State := { s with seq := { s.seq with phase := v } }

/-- `ROM_IDX <- n` (R31). -/
def setRomIdx (n : Nat) (s : State) : State := { s with seq := { s.seq with romIdx := n } }

/-- `BYTE_IDX <- n` (R31). -/
def setByteIdx (n : Nat) (s : State) : State := { s with seq := { s.seq with byteIdx := n } }

/-- Write the framebuffer. -/
def setFb (m : List Host.Cell) (s : State) : State := { s with fb := m }

/-- The lines with one of `CS_N`, `DC`, `RST_N` driven. -/
def driveLine (l : Line) (b : Bool) (ls : Lines) : Lines :=
  match l with
  | .csN => { ls with csN := b }
  | .dc => { ls with dc := b }
  | .rstN => { ls with rstN := b }

/-- `Pin(L, b)` (spec/00_scope.md R13): drives the line and appends the event, also where the level does not change (R102). -/
def pin (l : Line) (b : Bool) (s : State) : State :=
  { s with lines := driveLine l b s.lines, trace := s.trace ++ [.pin l b] }

/-- `for i in 7 down to 0: MOSI <- v[i]; SCLK <- 1; SCLK <- 0` (R103). -/
def waveform (v : Byte) : List Wave :=
  [7, 6, 5, 4, 3, 2, 1, 0].flatMap fun i => [.mosi (v.getLsbD i), .sclk true, .sclk false]

/-- One level written on a serial line. -/
def driveWave (ls : Lines) : Wave → Lines
  | .mosi b => { ls with mosi := b }
  | .sclk b => { ls with sclk := b }

/-- `Shift(v)` (R103). -/
def shift (v : Byte) (s : State) : State :=
  { s with lines := (waveform v).foldl driveWave s.lines, trace := s.trace ++ [.byte v] }

/-- `for BYTE_IDX in k ..: Shift(bytes[BYTE_IDX])` (R102). -/
def transfer : List Byte → Nat → State → State
  | [], _, s => s
  | b :: bs, k, s => transfer bs (k + 1) (shift b (setByteIdx k s))

/-- What `Frame` and `SendCmd` return (R102, R106). -/
inductive BusReply where
  | ok
  | fault
  deriving DecidableEq, Repr

/-- The environment's answer to the next frame (R105). -/
def nextDraw (s : State) : BusDraw := s.bus.drawAt s.bus.taken

/-- The draw is taken once per frame (R105). -/
def takeDraw (s : State) : State := { s with bus := { s.bus with taken := s.bus.taken + 1 } }

/-- `Frame(dc, bytes)` (R102). On a fault the prefix draw `k` sends the first `k` bytes, all of them where `k` is no
smaller than the length. -/
def frame (dc : Bool) (bytes : List Byte) (s : State) : State × BusReply :=
  let s := pin .csN false (pin .dc dc (pin .csN true s))
  match nextDraw s with
  | .ok => (pin .csN true (transfer bytes 0 (takeDraw s)), .ok)
  | .fault k => (pin .csN true (transfer (bytes.take k) 0 (takeDraw s)), .fault)

/-- Go on with `f` only where no bus write failed. -/
def andThen (r : State × BusReply) (f : State → State × BusReply) : State × BusReply :=
  match r.2 with
  | .ok => f r.1
  | .fault => r

/-- The parameter bytes of `SendCmd`, each in its own data frame (R106). -/
def sendData : List Byte → State → State × BusReply
  | [], s => (s, .ok)
  | b :: bs, s => andThen (frame true [b] s) (sendData bs)

/-- `SendCmd(cmd, data)` (R106). -/
def sendCmd (cmd : Byte) (data : List Byte) (s : State) : State × BusReply :=
  andThen (frame false [cmd] s) (sendData data)

end Sys2Proof.Machine
end

