-- ==== Sys2Proof/Machine/Framebuffer.lean ====
section
/-! DEFINITION. SET_PIXEL, FILL_RECT and FILL (spec/41_framebuffer.md). Their reserved-flag check stands in the decoder
(spec/30_encoding.md R62); they are accepted in every `STATE` (spec/60_exceptions.md R127). -/

namespace Sys2Proof.Machine

/-- SET_PIXEL (R92). -/
def execSetPixel (x y : Int) (c : Color) (s : State) : Host.Outcome State Fault Refusal :=
  .next (finish .ok (setFb (plotPixel s.cfg x y c s.fb) s))

/-- FILL_RECT (R93). -/
def execFillRect (x y w h : Int) (c : Color) (s : State) : Host.Outcome State Fault Refusal :=
  .next (finish .ok (setFb (fillRectClip s.cfg x y w h c s.fb) s))

/-- FILL (R94). -/
def execFill (c : Color) (s : State) : Host.Outcome State Fault Refusal :=
  .next (finish .ok (setFb (fillAll s.cfg c s.fb) s))

end Sys2Proof.Machine
end

