-- ==== Sys2Proof/Machine/Panel.lean ====
section
/-! DEFINITION. INIT and SHOW (spec/42_panel.md). Their reserved-flag check stands in the decoder (spec/30_encoding.md R62). -/

namespace Sys2Proof.Machine

/-- INIT's acceptance: `STATUS.STATE <- INITIALIZING` (R109), then `PHASE <- RESET_PULSE` (R110). -/
def acceptInit (s : State) : State := setPhase .resetPulse (setPanel .initializing s)

/-- The INIT in progress has been accepted and has not driven its pulse yet: as `acceptInit` leaves the block. -/
def initAccepted (s : State) : Bool := decide (s.panel = .initializing) && decide (s.seq.phase = .resetPulse)

/-- `Pin(RST_N, 1); Pin(RST_N, 0); Pin(RST_N, 1)` (R110). -/
def resetPulse (s : State) : State := pin .rstN true (pin .rstN false (pin .rstN true s))

/-- The ROM walk from entry `k` on (R111). -/
def walkRom : List RomEntry → Nat → State → State × BusReply
  | [], _, s => (s, .ok)
  | e :: es, k, s => andThen (sendCmd e.cmd e.data (setRomIdx k s)) (walkRom es (k + 1))

/-- INIT from its acceptance on (R110, R111, R112, R124); where it has been accepted already, acceptance changes nothing. -/
def bringUp (s : State) : State :=
  let r := walkRom (romEntries s.cfg.initRom) 0 (setPhase .rom (resetPulse (acceptInit s)))
  match r.2 with
  | .ok => finish .ok (setPanel .ready (setPhase .done r.1))
  | .fault => finish .busFault (setPanel .uninit r.1)

/-- INIT (R109): accepted in UNINIT only, else BAD_STATE and no other effect; one already accepted (log 6) goes on. -/
def execInit (s : State) : Host.Outcome State Fault Refusal :=
  .next (match s.panel with
    | .uninit => bringUp s
    | .initializing => if initAccepted s then bringUp s else finish .badState s
    | .ready => finish .badState s)

/-- SHOW's window setup and pixel stream (R115, R116). -/
def sendScreen (s : State) : State × BusReply :=
  andThen (sendCmd s.cfg.cmds.caset (axisWindow s.cfg.w) (setPhase .caset s)) fun s =>
  andThen (sendCmd s.cfg.cmds.raset (axisWindow s.cfg.h) (setPhase .raset s)) fun s =>
  andThen (frame false [s.cfg.cmds.ramwr] (setPhase .ramwr s)) fun s =>
  frame true (fbBytesOf s.cfg s.fb) (setPhase .pixels s)

/-- SHOW once accepted (R115, R116, R117, R123). -/
def sendImage (s : State) : State :=
  match sendScreen s with
  | (s, .ok) => finish .ok (setPhase .done s)
  | (s, .fault) => finish .busFault s

/-- SHOW (R114): accepted in READY only, else BAD_STATE and no other effect. -/
def execShow (s : State) : Host.Outcome State Fault Refusal :=
  .next (match s.panel with
    | .ready => sendImage s
    | .uninit => finish .badState s
    | .initializing => finish .badState s)

end Sys2Proof.Machine
end

