-- ==== Sys2Proof/Machine/Rasterizer.lean ====
section
/-! DEFINITION. DRAW_TEXT (spec/40_rasterizer.md R82), over the registers `PEN_X`, `CHAR_IDX`, `ROW` and `COL`. -/

namespace Sys2Proof.Machine

/-- `PEN_X <- v`. -/
def setPen (v : Int) (s : State) : State := { s with raster := { s.raster with penX := v } }

/-- `CHAR_IDX <- n`. -/
def setCharIdx (n : Nat) (s : State) : State := { s with raster := { s.raster with charIdx := n } }

/-- `ROW <- r` and `COL <- k`. -/
def setCell (r k : Nat) (s : State) : State := { s with raster := { s.raster with row := r, col := k } }

/-- The operands of one DRAW_TEXT that stay the same for all its characters. -/
structure TextStyle where
  mirror : Bool
  y      : Int
  color  : Color
  sx     : Int
  sy     : Int
  deriving DecidableEq, Repr

/-- The block of one set bit (R80): a pixel at scale (1,1), else a clipped rectangle. -/
def plotBlock (p : Params) (t : TextStyle) (px py : Int) (m : List Host.Cell) : List Host.Cell :=
  if t.sx = 1 ∧ t.sy = 1 then plotPixel p px py t.color m else fillRectClip p px py t.sx t.sy t.color m

/-- One `(ROW, COL)` of a glyph (R80, R81, R82): a clear bit leaves the framebuffer as it is (R86). -/
def drawCell (t : TextStyle) (g : GlyphRows) (row col : Nat) (s : State) : State :=
  let s := setCell row col s
  if glyphBit s.cfg.bitOrder (glyphRow g s.raster.row) s.raster.col then
    setFb (plotBlock s.cfg t (s.raster.penX + (destColumn t.mirror s.raster.col : Int) * t.sx)
      (t.y + (s.raster.row : Int) * t.sy) s.fb) s
  else s

/-- The loops over `ROW` and `COL` (R82). -/
def drawGlyph (t : TextStyle) (g : GlyphRows) (s : State) : State :=
  (List.range 8).foldl (fun s row => (List.range 8).foldl (fun s col => drawCell t g row col s) s) s

/-- `PEN_X <- PEN_X + (GLYPH_W + 1) * sx` (R79). -/
def advancePen (sx : Int) (s : State) : State := setPen (s.raster.penX + 9 * sx) s

/-- One character: an unsupported code draws nothing, and the pen advances all the same (R79, R83). -/
def drawChar (t : TextStyle) (ch : Word) (s : State) : State :=
  advancePen t.sx (match glyphLookup s.cfg ch with
    | none => s
    | some g => drawGlyph t g s)

/-- `for CHAR_IDX in k ..`, in string order (R82). -/
def drawChars (t : TextStyle) : List Word → Nat → State → State
  | [], _, s => s
  | ch :: chs, k, s => drawChars t chs (k + 1) (drawChar t ch (setCharIdx k s))

/-- DRAW_TEXT (R82): the pen starts at `x`; the result is always OK. -/
def execDrawText (mirror : Bool) (x y : Int) (c : Color) (sx sy : Int) (chars : List Word) (s : State) :
    Host.Outcome State Fault Refusal :=
  .next (finish .ok (drawChars { mirror := mirror, y := y, color := c, sx := sx, sy := sy } chars 0 (setPen x s)))

end Sys2Proof.Machine
end

