-- ==== Sys2Proof/Machine/Dispatch.lean ====
section
/-! DEFINITION. The meaning of each operation: one arm per constructor of `Instr`, one direct call per arm. -/

namespace Sys2Proof.Machine

def exec (i : Instr) (s : State) : Host.Outcome State Fault Refusal :=
  match i with
  | .init => Sys2Proof.Machine.execInit s
  | .setPixel x y c => Sys2Proof.Machine.execSetPixel x y c s
  | .fillRect x y w h c => Sys2Proof.Machine.execFillRect x y w h c s
  | .fill c => Sys2Proof.Machine.execFill c s
  | .drawText mirror x y c sx sy chars => Sys2Proof.Machine.execDrawText mirror x y c sx sy chars s
  | .showPanel => Sys2Proof.Machine.execShow s

end Sys2Proof.Machine
end

