-- ==== Sys2Proof/WellFormed.lean ====
section
/-! DEFINITION. Which operations a packet can carry: the ranges of spec/30_encoding.md R57. -/

namespace Sys2Proof

/-- The range of a `coord`, `size` or `scale` argument (R57). -/
def inSigned16 (v : Int) : Bool := decide (-32768 ≤ v ∧ v ≤ 32767)

/-- The range of a `count` argument (R57). -/
def inCount16 (n : Nat) : Bool := decide (n ≤ 65535)

/-- Every signed operand fits its 16-bit field, and the character count fits `zext_16` (R57, R59). -/
def Instr.wellFormed : Instr → Bool
  | .init => true
  | .setPixel x y _ => inSigned16 x && inSigned16 y
  | .fillRect x y w h _ => inSigned16 x && inSigned16 y && inSigned16 w && inSigned16 h
  | .fill _ => true
  | .drawText _ x y _ sx sy chars =>
      inSigned16 x && inSigned16 y && inSigned16 sx && inSigned16 sy && inCount16 chars.length
  | .showPanel => true

end Sys2Proof
end

