-- ==== Sys2Proof/Decode.lean ====
section
/-! DEFINITION. Packets (spec/30_encoding.md): the opcode map, the packet length, the decoder and, after it, the encoder.
A packet is its header word and its argument words, as the packet latch holds them (R55). -/

namespace Sys2Proof

open Sys2Proof.Machine (sext16 zext16)

/-- `OPCODE`, header bits [15:8] (R56). -/
def opcodeField (hdr : Word) : Byte := hdr.extractLsb' 8 8

/-- `FLAGS`, header bits [7:0] (R56). -/
def flagsField (hdr : Word) : Byte := hdr.extractLsb' 0 8

/-- The opcode map (R61). -/
def opcodeCode : Opcode → Byte
  | .init => 0x01#8
  | .setPixel => 0x10#8
  | .fillRect => 0x11#8
  | .fill => 0x12#8
  | .drawText => 0x20#8
  | .showPanel => 0x30#8

/-- The opcode map read from the byte; every other value is illegal (R63). -/
def opcodeOfByte (b : Byte) : Option Opcode :=
  if b = 0x01#8 then some .init
  else if b = 0x10#8 then some .setPixel
  else if b = 0x11#8 then some .fillRect
  else if b = 0x12#8 then some .fill
  else if b = 0x20#8 then some .drawText
  else if b = 0x30#8 then some .showPanel
  else none

/-- The opcode a header names, if any. -/
def headerOpcode (hdr : Word) : Option Opcode := opcodeOfByte (opcodeField hdr)

/-- The reserved flag bits of an opcode (R56, R62): bit 0 is `MIRROR` for DRAW_TEXT, every other bit is reserved. -/
def reservedFlags : Opcode → Byte
  | .init => 0xFF#8
  | .setPixel => 0xFF#8
  | .fillRect => 0xFF#8
  | .fill => 0xFF#8
  | .drawText => 0xFE#8
  | .showPanel => 0xFF#8

/-- A packet's length in words, `n` the character count of a DRAW_TEXT (R59). -/
def opcodeLength (op : Opcode) (n : Nat) : Nat :=
  match op with
  | .init => 1
  | .setPixel => 4
  | .fillRect => 6
  | .fill => 2
  | .drawText => 7 + n
  | .showPanel => 1

/-- `PacketLength(HDR, arg)` (R59, R73): `none` while a DRAW_TEXT's `arg[5]` has not arrived. -/
def packetLength (hdr : Word) (args : List Word) : Option Nat :=
  match headerOpcode hdr with
  | none => some 1
  | some .drawText => (args[5]?).map fun n => opcodeLength .drawText (zext16 n)
  | some op => some (opcodeLength op 0)

/-- Why a packet is no operation. -/
inductive Reject where
  /-- The `OPCODE` is not in the map (R63): the sequencer finishes with ILLEGAL. -/
  | unknownOpcode
  /-- A reserved flag bit is set (R62): the sequencer finishes with ILLEGAL. -/
  | reservedFlags
  /-- The words are not as many as the packet's length: no packet the receive machine completes. -/
  | notAPacket
  deriving DecidableEq, Repr

/-- The operands of DRAW_TEXT (R60). -/
def decodeText (mirror : Bool) (args : List Word) : Except Reject Instr :=
  match args with
  | x :: y :: c :: sx :: sy :: _ :: chars =>
      .ok (.drawText mirror (sext16 x) (sext16 y) c (sext16 sx) (sext16 sy) chars)
  | _ => .error .notAPacket

/-- The operands of a packet of the right length (R57, R60); `MIRROR` is header bit 0 (R56). -/
def decodeArgs (op : Opcode) (hdr : Word) (args : List Word) : Except Reject Instr :=
  match op with
  | .init => match args with
    | [] => .ok .init
    | _ => .error .notAPacket
  | .setPixel => match args with
    | [x, y, c] => .ok (.setPixel (sext16 x) (sext16 y) c)
    | _ => .error .notAPacket
  | .fillRect => match args with
    | [x, y, w, h, c] => .ok (.fillRect (sext16 x) (sext16 y) (sext16 w) (sext16 h) c)
    | _ => .error .notAPacket
  | .fill => match args with
    | [c] => .ok (.fill c)
    | _ => .error .notAPacket
  | .drawText => decodeText ((flagsField hdr).getLsbD 0) args
  | .showPanel => match args with
    | [] => .ok .showPanel
    | _ => .error .notAPacket

/-- The decoder, total on every header and argument list, in the order of R131: opcode, then reserved flags. -/
def decode (hdr : Word) (args : List Word) : Except Reject Instr :=
  if packetLength hdr args = some (args.length + 1) then
    match headerOpcode hdr with
    | none => .error .unknownOpcode
    | some op =>
      if flagsField hdr &&& reservedFlags op = 0#8 then decodeArgs op hdr args else .error .reservedFlags
  else .error .notAPacket

/-- Word `k` of an instruction whose bits are `w`, the bits from `nbits` on being 0 (opcode_table.json numbers bit 0 as
the least significant bit of the header, a later word's bits counting on). -/
def tableWord (nbits w k : Nat) : Word := BitVec.ofNat 16 ((w % 2 ^ nbits) >>> (16 * k))

/-- The packet of such an instruction: its header and as many argument words as its opcode takes. -/
def tablePacket (nbits w : Nat) : Word × List Word :=
  let hdr := tableWord nbits w 0
  let len := match headerOpcode hdr with
    | none => 1
    | some op => opcodeLength op (zext16 (tableWord nbits w 6))
  (hdr, (List.range (len - 1)).map fun k => tableWord nbits w (k + 1))

/-- The instruction the decoder reads from such bits. -/
def decodeTableWord (nbits w : Nat) : Option Instr :=
  match decode (tablePacket nbits w).1 (tablePacket nbits w).2 with
  | .ok i => some i
  | .error _ => none

/-! ### The encoder, from the same tables (R56, R60, R61). -/

/-- A header word `{OPCODE, FLAGS}` (R56). -/
def encodeHeader (op : Opcode) (flags : Byte) : Word := opcodeCode op ++ flags

/-- The flags an operation is sent with: `MIRROR` in bit 0 for DRAW_TEXT (R56). -/
def encodeFlags : Instr → Byte
  | .init => 0x00#8
  | .setPixel _ _ _ => 0x00#8
  | .fillRect _ _ _ _ _ => 0x00#8
  | .fill _ => 0x00#8
  | .drawText mirror _ _ _ _ _ _ => if mirror then 0x01#8 else 0x00#8
  | .showPanel => 0x00#8

/-- A signed argument as its 16-bit two's complement word. -/
def encodeSigned (v : Int) : Word := BitVec.ofInt 16 v

/-- The argument words of an operation (R60, R61). -/
def encodeArgs : Instr → List Word
  | .init => []
  | .setPixel x y c => [encodeSigned x, encodeSigned y, c]
  | .fillRect x y w h c => [encodeSigned x, encodeSigned y, encodeSigned w, encodeSigned h, c]
  | .fill c => [c]
  | .drawText _ x y c sx sy chars =>
      [encodeSigned x, encodeSigned y, c, encodeSigned sx, encodeSigned sy, BitVec.ofNat 16 chars.length] ++ chars
  | .showPanel => []

/-- The words of an operation's packet, header first (R55). -/
def encode (i : Instr) : List Word := encodeHeader i.opcode (encodeFlags i) :: encodeArgs i

end Sys2Proof
end

