-- ==== Sys2Proof/Machine/HostPort.lean ====
section
/-! DEFINITION. The host's side: the register map (spec/20_memory.md R46, R47), the packet receive machine
(spec/30_encoding.md R73), the block reset (spec/70_reset_and_hazards.md R140) and which input lands at a step. -/

namespace Sys2Proof.Machine

/-- A block reset sets every piece of the block's state to R37's value and appends no event (R140). The parameters, the
bus environment, the host's further inputs and its last reply are not the block's state (log 13). -/
def blockReset (s : State) : State := State.resetWith s.cfg s.bus s.inputs s.hostRead

/-- The latch after one more word: the header, or `arg[RXCOUNT-1]` (R73). -/
def latchWord (w : Word) (l : Latch) : Latch :=
  if l.rxcount = 0 then { l with hdr := w, rxcount := 1 }
  else { l with args := l.args ++ [w], rxcount := l.rxcount + 1 }

/-- A word written to `CMD` while BUSY is 0 (R73). With the packet's last word `RXCOUNT <- 0` and `BUSY <- 1`; the
operation is then performed by the sequencer (Machine/Sequencer.lean, log 6). DESIGN CHOICE (log 23): for an unknown opcode
`OP` stays IDLE while BUSY is 1, and for a known one with reserved flags it is the header's operation. Unsafe for a claim
on `OP` of an illegal packet, of which R31 of spec/10_state.md is silent. -/
def receive (w : Word) (s : State) : State :=
  let l := latchWord w s.latch
  if packetLength l.hdr l.args = some l.rxcount then
    { s with latch := { l with rxcount := 0 }, busy := true, seq := { s.seq with op := headerOpcode l.hdr } }
  else { s with latch := l }

/-- What a read returns: `STATUS` at 0x2, and 0x0000 at `CMD` and at every reserved offset (R46, R47). -/
def readRegister (offset : Nat) (s : State) : Word := if offset = 2 then statusWord s else 0#16

/-- A write: `CMD` at 0x0 takes the word, `STATUS` and the reserved offsets ignore it (R46, R47). -/
def writeRegister (offset : Nat) (v : Word) (s : State) : State := if offset = 0 then receive v s else s

/-- The only accesses the host register space takes: 16 bits at an even offset (R44). -/
def accessOk (offset width : Nat) : Bool := width == 16 && offset % 2 == 0

/-- The access is one of those. -/
def shapeOk : HostAccess → Bool
  | .read offset width => accessOk offset width
  | .write offset width _ => accessOk offset width

/-- One host access (R44, R46). -/
def serve (a : HostAccess) (s : State) : Host.Outcome State Fault Refusal :=
  match a with
  | .read offset width =>
    if accessOk offset width then .next { s with hostRead := some (readRegister offset s) }
    else .refused .hostAccessShape
  | .write offset width v =>
    if accessOk offset width then .next (writeRegister offset v s) else .refused .hostAccessShape

/-- A write to `CMD`: it has no step while BUSY is 1 (R145). -/
def isCmdWrite : HostAccess → Bool
  | .read _ _ => false
  | .write offset width _ => accessOk offset width && offset == 0

/-- Whether an input lands while an operation is being performed: a reset does, and an access the host makes then, but for
a `CMD` write, which waits (R46, R140, R145). -/
def landsWhileBusy : Input → Bool
  | .reset => true
  | .access a m => m != .idle && !isCmdWrite a

/-- The input that lands at this step and the ones left, if one lands. -/
def nextInput (s : State) : Option (Input × List Input) :=
  match s.inputs with
  | [] => none
  | i :: rest => if !s.busy || landsWhileBusy i then some (i, rest) else none

/-- One input (R46, R140). -/
def applyInput (i : Input) (s : State) : Host.Outcome State Fault Refusal :=
  match i with
  | .reset => .next (blockReset s)
  | .access a _ => serve a s

/-- The state with a whole packet in the latch, accepted and not yet performed; inputs that would land first are gone. -/
def loadPacket (hdr : Word) (args : List Word) (s : State) : State :=
  { s with
    latch := { hdr := hdr, args := args, rxcount := 0 }
    busy := true
    seq := { s.seq with op := headerOpcode hdr }
    inputs := s.inputs.dropWhile landsWhileBusy }

end Sys2Proof.Machine
end

