-- ==== Sys2Proof/Machine/Sequencer.lean ====
section
/-! DEFINITION. The sequencer (spec/10_state.md R20.2): it performs the packet in the latch. -/

namespace Sys2Proof.Machine

/-- `Perform(HDR, arg)` (spec/30_encoding.md R73): an illegal packet does `finish(ILLEGAL)` and nothing else (R62, R63,
spec/60_exceptions.md R126). -/
def perform (s : State) : Host.Outcome State Fault Refusal :=
  match decode s.latch.hdr s.latch.args with
  | .ok i => exec i s
  | .error .unknownOpcode => .next (finish .illegal s)
  | .error .reservedFlags => .next (finish .illegal s)
  | .error .notAPacket => .fault .latchNotAPacket

/-- An INIT is to be performed that STATE admits and that has not been accepted yet (spec/42_panel.md R109). -/
def initWaits (s : State) : Bool :=
  s.busy && decide (s.latch.hdr = encodeHeader .init 0x00#8) && decide (s.panel = .uninit)

/-- The input is an access the host makes past the acceptance of an INIT that waits for it, so that the acceptance comes
first (spec/10_state.md R23, log 7). What comes later in the INIT then finds it accepted: STATE does not go back. -/
def acceptedFirst (i : Input) (s : State) : Bool :=
  match i with
  | .reset => false
  | .access a m => m == .underWay && shapeOk a && initWaits s

/-- What happens at one step: an INIT's acceptance where the host's next input needs it (log 6), else that input where one
lands, else the operation in progress, else nothing: an idle block waits, a partly received packet for ever
(spec/70_reset_and_hazards.md R142, R150). DESIGN CHOICE (log 22): from its acceptance to its finish an INIT is one step, so
no read of `STATUS` falls between the writes that end it and none sees READY with BUSY 1. Unsafe for a claim that none
does. -/
def advance (s : State) : Host.Outcome State Fault Refusal :=
  match nextInput s with
  | some (i, rest) => if acceptedFirst i s then .next (acceptInit s) else applyInput i { s with inputs := rest }
  | none => if s.busy then perform s else .next s

end Sys2Proof.Machine
end

