-- ==== Sys2Proof/Machine/Step.lean ====
section
/-! DEFINITION. One step of the block with its host and its bus environment. -/

namespace Sys2Proof.Machine

/-- One step: one host input, or one whole operation (spec/20_memory.md R45), or an INIT's acceptance ahead of an access
made past it (log 6), or waiting; refused where the configuration is one a model must refuse (spec/00_scope.md R9). -/
def step (s : State) : Host.Outcome State Fault Refusal :=
  if configOk s.cfg then advance s else .refused .badConfiguration

/-- `s` with the packet of the instruction of bits `w` in the packet latch, which is where the sequencer takes its next
operation from: received whole, accepted and not yet performed (log 8, log 9). -/
def State.withFetchWord (s : State) (nbits w : Nat) : State :=
  loadPacket (tablePacket nbits w).1 (tablePacket nbits w).2 s

end Sys2Proof.Machine
end

