-- ==== Sys2Proof/Machine/Trace.lean ====
section
/-! DEFINITION. What a trace says: the projections of spec/42_panel.md R104, the levels it leaves the lines at
(spec/10_state.md R26), and the events and frames INIT and SHOW are to send (R102, R106, R111, R115, R116, R118). -/

namespace Sys2Proof.Machine

/-- A frame as its DC level and its bytes (R102). -/
abbrev Frame := Bool × List Byte

/-- `Bytes(TRACE)` (R104), `dc` the level before the first event. -/
def traceBytesFrom (dc : Bool) : List Event → List (Bool × Byte)
  | [] => []
  | .pin .dc b :: es => traceBytesFrom b es
  | .pin .csN _ :: es => traceBytesFrom dc es
  | .pin .rstN _ :: es => traceBytesFrom dc es
  | .byte v :: es => (dc, v) :: traceBytesFrom dc es

/-- `Bytes(TRACE)` of a trace that starts at reset, where DC is 0 (R104, R37). -/
def traceBytes (es : List Event) : List (Bool × Byte) := traceBytesFrom false es

/-- `Frames(TRACE)` (R104): `dc` the level before the first event, `cur` the bytes of the interval that is open. -/
def traceFramesFrom (dc : Bool) (cur : Option (List Byte)) : List Event → List Frame
  | [] => []
  | .pin .dc b :: es => traceFramesFrom b cur es
  | .pin .rstN _ :: es => traceFramesFrom dc cur es
  | .pin .csN false :: es => traceFramesFrom dc (some (cur.getD [])) es
  | .pin .csN true :: es =>
    match cur with
    | none => traceFramesFrom dc none es
    | some vs => (dc, vs) :: traceFramesFrom dc none es
  | .byte v :: es => traceFramesFrom dc (cur.map fun vs => vs ++ [v]) es

/-- `Frames(TRACE)` of a trace that starts at reset. -/
def traceFrames (es : List Event) : List Frame := traceFramesFrom false none es

/-- The levels after one event (R26): a `Byte` leaves `MOSI` at its last bit and `SCLK` low (R103). -/
def lineAfter (l : Lines) : Event → Lines
  | .pin .csN b => { l with csN := b }
  | .pin .dc b => { l with dc := b }
  | .pin .rstN b => { l with rstN := b }
  | .byte v => { l with mosi := v.getLsbD 0, sclk := false }

/-- The levels a list of events leaves. -/
def linesAfter (l : Lines) (es : List Event) : Lines := es.foldl lineAfter l

/-- The framing rule (R27, R102): a `Byte` only while `CS_N` is 0, and `DC` driven only while `CS_N` is 1.
`sel` is whether `CS_N` is 0; `none` where the rule is broken, else whether it is 0 at the end. -/
def framing (sel : Bool) : List Event → Option Bool
  | [] => some sel
  | .pin .csN b :: es => framing (!b) es
  | .pin .dc _ :: es => if sel then none else framing sel es
  | .pin .rstN _ :: es => framing sel es
  | .byte _ :: es => if sel then framing sel es else none

/-- The events of one frame whose bus write succeeds (R102). -/
def frameEvents (f : Frame) : List Event :=
  [.pin .csN true, .pin .dc f.1, .pin .csN false] ++ f.2.map Event.byte ++ [.pin .csN true]

/-- The events of frames sent one after the other. -/
def framesEvents (fs : List Frame) : List Event := fs.flatMap frameEvents

/-- The frames of `SendCmd(cmd, data)`: each parameter byte is its own data frame (R106). -/
def cmdFrames (cmd : Byte) (data : List Byte) : List Frame := (false, [cmd]) :: data.map fun b => (true, [b])

/-- INIT's reset pulse (R110). -/
def pulseEvents : List Event := [.pin .rstN true, .pin .rstN false, .pin .rstN true]

/-- The frames of INIT's ROM walk (R111). -/
def initFrames (p : Params) : List Frame := (romEntries p.initRom).flatMap fun e => cmdFrames e.cmd e.data

/-- The frames of SHOW (R115, R116). -/
def showFrames (p : Params) (fb : List Host.Cell) : List Frame :=
  cmdFrames p.cmds.caset (axisWindow p.w) ++ cmdFrames p.cmds.raset (axisWindow p.h) ++
    [(false, [p.cmds.ramwr]), (true, fbBytesOf p fb)]

end Sys2Proof.Machine
end

