-- ==== Sys2Proof/Safety.lean ====
section
/-! DEFINITION. The terms claims are stated in: the invariant of the block between steps, the premise of a clean transfer,
the footprints of the drawing operations, and what a state outside the framebuffer keeps. -/

namespace Sys2Proof.Machine

/-- The latch while no operation is accepted: `RXCOUNT` 0 and `arg` empty, or a packet partly received, short of its own
length (spec/10_state.md R33, spec/30_encoding.md R73). -/
def latchReceiving (l : Latch) : Prop :=
  if l.rxcount = 0 then l.args = []
  else l.args.length + 1 = l.rxcount ∧
    (packetLength l.hdr l.args = none ∧ l.rxcount < 7 ∨
      ∃ n, packetLength l.hdr l.args = some n ∧ l.rxcount < n)

/-- The latch of an accepted packet: whole, `RXCOUNT` back at 0 (R73). -/
def latchWhole (l : Latch) : Prop :=
  l.rxcount = 0 ∧ packetLength l.hdr l.args = some (l.args.length + 1)

/-- What holds between steps. -/
structure Inv (s : State) : Prop where
  /-- The configuration is one the spec admits (spec/00_scope.md R9). -/
  config : configOk s.cfg = true
  /-- The framebuffer list is canonical and inside `FB_BYTES` (spec/10_state.md R28). -/
  memory : fbWf s.cfg s.fb = true
  /-- INITIALIZING is held only inside INIT (R23). -/
  panel : s.panel = .initializing → s.busy = true ∧ s.latch.hdr = 0x0100#16
  /-- The lines are where the trace's events left them (R26). -/
  lines : s.lines = linesAfter Lines.reset s.trace
  /-- Every byte went out inside a frame, `DC` still while selected, and the panel is deselected (R27, R102). -/
  framed : framing false s.trace = some false
  /-- The panel's reset is released and the clock idle (R26, R103, R110). -/
  released : s.lines.csN = true ∧ s.lines.rstN = true ∧ s.lines.sclk = false
  /-- The sequencer is idle but for the operation to be performed (R31; log 23 for an illegal packet), and at the reset
  pulse where that is an INIT already accepted (R110). -/
  sequencer : s.seq = { Seq.idle with
    op := if s.busy then headerOpcode s.latch.hdr else none
    phase := if s.panel = .initializing then .resetPulse else .idle }
  /-- The latch holds a whole packet while BUSY, else one being received (R24, R73). -/
  latch : if s.busy then latchWhole s.latch else latchReceiving s.latch

/-- The answers to the next `n` frames are all `ok`: the premise "every draw is true" (spec/42_panel.md R105). -/
def busClean (s : State) (n : Nat) : Prop := ∀ k, k < n → s.bus.drawAt (s.bus.taken + k) = .ok

/-- The answers to the next `n` frames are `ok` and the one after them fails with prefix draw `sent` (R105). -/
def busFaultsAt (s : State) (n sent : Nat) : Prop := busClean s n ∧ s.bus.drawAt (s.bus.taken + n) = .fault sent

/-- `s` with events `es` sent in `n` frames. -/
def sent (es : List Event) (n : Nat) (s : State) : State :=
  { s with
    lines := linesAfter s.lines es
    trace := s.trace ++ es
    bus := { s.bus with taken := s.bus.taken + n } }

/-- `t` is `s` after `finish(code)`, whatever the rasterizer's working registers hold then: they are not live, and their
value there is the model's choice (log 10), which no claim rests on. -/
def finishedFrom (code : ResultCode) (s t : State) : Prop := ∃ r : Raster, t = { finish code s with raster := r }

/-- An operation that only draws: it writes the framebuffer and finishes OK (spec/60_exceptions.md R127, R128). -/
def drawsOnly : Instr → Bool
  | .init => false
  | .setPixel _ _ _ => true
  | .fillRect _ _ _ _ _ => true
  | .fill _ => true
  | .drawText _ _ _ _ _ _ _ => true
  | .showPanel => false

/-- No host input lands at this step. -/
def noInput (s : State) : Prop := nextInput s = none

/-- `n` steps, stopping at the first fault or refusal. -/
def steps : Nat → State → Host.Outcome State Fault Refusal
  | 0, s => .next s
  | n + 1, s =>
    match step s with
    | .next t => steps n t
    | .fault f => .fault f
    | .refused r => .refused r

/-- An event is a `Pin` of this line (spec/10_state.md R27). -/
def isPinOf (l : Line) : Event → Bool
  | .pin k _ => k == l
  | .byte _ => false

/-- An event is a `Pin`. -/
def isPin : Event → Bool
  | .pin _ _ => true
  | .byte _ => false

/-- An event is a `Byte`. -/
def isByte : Event → Bool
  | .pin _ _ => false
  | .byte _ => true

/-- What a receiver that samples `MOSI` at each rising edge of `SCLK` reads, `level` being `MOSI`'s before (R103, mode 0). -/
def sampled (level : Bool) : List Wave → List Bool
  | [] => []
  | .mosi b :: ws => sampled b ws
  | .sclk true :: ws => level :: sampled level ws
  | .sclk false :: ws => sampled level ws

/-- Pixel `(i, j)` lies in the rectangle of origin `(x, y)` and size `w` by `h` (spec/41_framebuffer.md R97). -/
def inRect (x y w h i j : Int) : Prop := x ≤ i ∧ i < x + w ∧ y ≤ j ∧ j < y + h

/-- Pixel `(i, j)` lies in a block that a DRAW_TEXT of these operands draws (spec/40_rasterizer.md R80, R81, R82): the
block of a set bit `(row, col)` of the glyph of some character `k` of the string, whose cell starts at `x + 9*sx*k`. -/
def inText (p : Params) (mirror : Bool) (x y sx sy : Int) (chars : List Word) (i j : Int) : Prop :=
  ∃ (k : Nat) (ch : Word) (g : GlyphRows) (row col : Nat),
    chars[k]? = some ch ∧ glyphLookup p ch = some g ∧ row < 8 ∧ col < 8 ∧
    glyphBit p.bitOrder (glyphRow g row) col = true ∧
    inRect (x + 9 * sx * k + (if mirror then 7 - (col : Int) else col) * sx) (y + row * sy) sx sy i j

/-- After drawing color `c` on the pixels of `covered`, going from framebuffer `m` to `m'`: every such pixel inside the
panel holds `c` in its two bytes, and every other byte reads as before. -/
def drawn (p : Params) (covered : Int → Int → Prop) (c : Color) (m m' : List Host.Cell) : Prop :=
  (∀ i j : Nat, i < p.w → j < p.h → covered i j →
    fbRead p (pixOff p i j) m' = firstByte p.byteOrder c ∧ fbRead p (pixOff p i j + 1) m' = secondByte p.byteOrder c) ∧
  (∀ a : Nat, (∀ i j : Nat, i < p.w → j < p.h → covered i j → a ≠ pixOff p i j ∧ a ≠ pixOff p i j + 1) →
    fbRead p a m' = fbRead p a m)

end Sys2Proof.Machine
end

