-- ==== Sys2Proof/Certificates/Slice0/Obligations.lean ====
section
/-! DEFINITION. The statements for the provers. Each docstring names the rule of spec/ it formalises; a statement whose
basis is derived says which convention of the model (log entry) it uses, where it uses one. -/

open Sys2Proof Sys2Proof.Machine

/-! ### Encoding (spec/30_encoding.md) -/

/-- Derived from R72: the three worked encodings, read by the decoder and written by the encoder. -/
def Obligations.WorkedEncodings : Prop :=
  decode 0x1000#16 [0x0003#16, 0xFFFF#16, 0xFFFF#16] = .ok (.setPixel 3 (-1) 0xFFFF#16) ∧
  encode (.setPixel 3 (-1) 0xFFFF#16) = [0x1000#16, 0x0003#16, 0xFFFF#16, 0xFFFF#16] ∧
  decode 0x2001#16 [0x000A#16, 0x0014#16, 0x07E0#16, 0x0006#16, 0x000A#16, 0x0005#16,
      0x0031#16, 0x0032#16, 0x003A#16, 0x0033#16, 0x0030#16] =
    .ok (.drawText true 10 20 0x07E0#16 6 10 [0x31#16, 0x32#16, 0x3A#16, 0x33#16, 0x30#16]) ∧
  encode (.drawText true 10 20 0x07E0#16 6 10 [0x31#16, 0x32#16, 0x3A#16, 0x33#16, 0x30#16]) =
    [0x2001#16, 0x000A#16, 0x0014#16, 0x07E0#16, 0x0006#16, 0x000A#16, 0x0005#16,
      0x0031#16, 0x0032#16, 0x003A#16, 0x0033#16, 0x0030#16] ∧
  decode 0x3000#16 [] = .ok .showPanel ∧ encode .showPanel = [0x3000#16]

/-- Derived from R56 to R61: the packet of every well-formed operation decodes to it, with every operand at every value
the encoding admits. -/
def Obligations.DecodeEncodeRoundTrip : Prop :=
  ∀ i : Instr, i.wellFormed = true → decode (encodeHeader i.opcode (encodeFlags i)) (encodeArgs i) = .ok i

/-- Derived from R56 to R64: what the decoder reads is well formed, and its packet is the one it was read from: no two
packets are read as one operation, and no bit of a packet is dropped. -/
def Obligations.DecodedPacketIsItsEncoding : Prop :=
  ∀ (hdr : Word) (args : List Word) (i : Instr),
    decode hdr args = .ok i → i.wellFormed = true ∧ encode i = hdr :: args

/-- Derived from R61, R62, R63 and R74: a header is that of some operation exactly where it matches a row of
opcode_table.json. -/
def Obligations.HeadersOfTheTable : Prop :=
  ∀ hdr : Word, (∃ args i, decode hdr args = .ok i) ↔
    hdr = 0x0100#16 ∨ hdr = 0x1000#16 ∨ hdr = 0x1100#16 ∨ hdr = 0x1200#16 ∨ hdr &&& 0xFFFE#16 = 0x2000#16 ∨ hdr = 0x3000#16

/-- R59: a packet's length in words by its opcode, for DRAW_TEXT by its opcode and `arg[5]`; an unknown opcode is one
word. -/
def Obligations.PacketLengths : Prop :=
  ∀ (hdr : Word) (args : List Word),
    (opcodeField hdr = 0x01#8 → packetLength hdr args = some 1) ∧
    (opcodeField hdr = 0x10#8 → packetLength hdr args = some 4) ∧
    (opcodeField hdr = 0x11#8 → packetLength hdr args = some 6) ∧
    (opcodeField hdr = 0x12#8 → packetLength hdr args = some 2) ∧
    (opcodeField hdr = 0x20#8 → ∀ n : Word, args[5]? = some n → packetLength hdr args = some (7 + n.toNat)) ∧
    (opcodeField hdr = 0x20#8 → args.length ≤ 5 → packetLength hdr args = none) ∧
    (opcodeField hdr = 0x30#8 → packetLength hdr args = some 1) ∧
    (opcodeField hdr ∉ [0x01#8, 0x10#8, 0x11#8, 0x12#8, 0x20#8, 0x30#8] → packetLength hdr args = some 1)

/-! ### The command port and the host registers (spec/20_memory.md, spec/30_encoding.md, spec/70_reset_and_hazards.md) -/

/-- Derived from R55, R62 and R73, the inputs as log 7 holds them: a host that writes the words of a whole packet, legal
or illegal, one by one to `CMD` of an idle block has the packet in the latch, accepted, after exactly as many steps as
it has words, and nothing else of the block has changed. That `OP` is IDLE for an unknown opcode is the model's choice
(log 23). -/
def Obligations.PacketReceivedWordByWord : Prop :=
  ∀ (s : State) (hdr : Word) (args : List Word) (ws : List (Word × Moment)) (rest : List Input),
    configOk s.cfg = true → s.busy = false → s.latch.rxcount = 0 → s.latch.args = [] →
    packetLength hdr args = some (args.length + 1) → ws.map Prod.fst = hdr :: args →
    s.inputs = ws.map (fun e => .access (.write 0 16 e.1) e.2) ++ rest →
    steps (args.length + 1) s = .next
      { s with
        inputs := rest
        busy := true
        latch := { hdr := hdr, args := args, rxcount := 0 }
        seq := { s.seq with op := headerOpcode hdr } }

/-- Derived from R73 (log 6, log 8): while BUSY is 1 and no host input lands, a step is the decoded operation of the
latch; and with an instruction's bits placed by `withFetchWord`, the very next step is that instruction. -/
def Obligations.StepRunsDecodedOperation : Prop :=
  (∀ (s : State) (i : Instr), configOk s.cfg = true → s.busy = true → noInput s →
    decode s.latch.hdr s.latch.args = .ok i → step s = exec i s) ∧
  (∀ (s : State) (nbits w : Nat) (i : Instr), configOk s.cfg = true → decodeTableWord nbits w = some i →
    step (s.withFetchWord nbits w) = exec i (s.withFetchWord nbits w))

/-- R126: the two conditions of ILLEGAL; such an operation does `finish(ILLEGAL)` and changes nothing else, so no
framebuffer byte, no trace event and no `STATE`. -/
def Obligations.IllegalPacketHasNoEffect : Prop :=
  ∀ s : State, configOk s.cfg = true → s.busy = true → noInput s → latchWhole s.latch →
    (headerOpcode s.latch.hdr = none ∨
      ∃ op, headerOpcode s.latch.hdr = some op ∧ flagsField s.latch.hdr &&& reservedFlags op ≠ 0#8) →
    ∃ t, step s = .next t ∧ finishedFrom .illegal s t ∧ t.fb = s.fb ∧ t.trace = s.trace ∧ t.panel = s.panel

/-- Derived from R131 with R126, R127, R128 and R129: the one code a packet reports is that of the first condition that
holds, in the order unknown opcode, reserved flags, wrong STATE, bus fault; else OK. That an INIT accepted already has its
STATE check behind it in the state is the model's choice (log 6). -/
def Obligations.ResultCodePriority : Prop :=
  ∀ s : State, configOk s.cfg = true → s.busy = true → noInput s → latchWhole s.latch →
    ∃ t, step s = .next t ∧ t.busy = false ∧
      (headerOpcode s.latch.hdr = none → t.result = .illegal) ∧
      (∀ op, headerOpcode s.latch.hdr = some op →
        (flagsField s.latch.hdr &&& reservedFlags op ≠ 0#8 → t.result = .illegal) ∧
        (flagsField s.latch.hdr &&& reservedFlags op = 0#8 →
          (op = .init → s.panel ≠ .uninit → initAccepted s = false → t.result = .badState) ∧
          (op = .init → s.panel = .uninit ∨ initAccepted s = true →
            busClean s (initFrames s.cfg).length → t.result = .ok) ∧
          (op = .init → s.panel = .uninit ∨ initAccepted s = true →
            ¬ busClean s (initFrames s.cfg).length → t.result = .busFault) ∧
          (op = .showPanel → s.panel ≠ .ready → t.result = .badState) ∧
          (op = .showPanel → s.panel = .ready → busClean s (showFrames s.cfg s.fb).length → t.result = .ok) ∧
          (op = .showPanel → s.panel = .ready → ¬ busClean s (showFrames s.cfg s.fb).length → t.result = .busFault) ∧
          (op ≠ .init → op ≠ .showPanel → t.result = .ok)))

/-- Derived from R150, second sentence on, with R142: with no word from the host, an idle block, whether or not a packet
is partly received, waits for ever, stuck and not faulted. -/
def Obligations.PartialPacketWaitsForEver : Prop :=
  ∀ (s : State) (n : Nat), configOk s.cfg = true → s.busy = false → s.inputs = [] →
    steps n s = .next s

/-- R145: while BUSY is 1 a `CMD` write of the host has no step: the operation is performed first, and the write,
neither dropped nor taken, is still the host's next input when BUSY has returned to 0. -/
def Obligations.CmdWriteWaitsWhileBusy : Prop :=
  ∀ (s : State) (w : Word) (m : Moment) (rest : List Input),
    configOk s.cfg = true → s.busy = true → latchWhole s.latch →
    s.inputs = .access (.write 0 16 w) m :: rest →
    ∃ t, step s = .next t ∧ t.busy = false ∧ t.inputs = s.inputs ∧ step s = perform s

/-- Derived from R121 and R22: the word a read of `STATUS` returns, field by field. -/
def Obligations.StatusWordLayout : Prop :=
  ∀ s : State,
    (statusWord s).extractLsb' 0 2 = (match s.panel with | .uninit => 0#2 | .initializing => 1#2 | .ready => 2#2) ∧
    (statusWord s).getLsbD 2 = s.busy ∧
    (statusWord s).getLsbD 3 = false ∧
    (statusWord s).extractLsb' 4 3 =
      (match s.result with | .ok => 0#3 | .busFault => 1#3 | .badState => 2#3 | .illegal => 3#3) ∧
    (statusWord s).extractLsb' 7 9 = 0#9

/-- Derived from R46 and R47, but for the platform's base address: reads have no side effect and may happen while BUSY
is 1; `CMD` and reserved offsets read as 0; writes to `STATUS` and reserved offsets are ignored; a write to `CMD`
delivers one word. Ahead of an access made past the acceptance of an INIT comes that acceptance, in a step of its own
(log 6), so that the access finds STATE INITIALIZING. That no read sees READY with BUSY 1 is the model's choice (log 22). -/
def Obligations.HostAccessEffects : Prop :=
  ∀ (s : State) (offset : Nat) (v : Word) (m : Moment) (rest : List Input),
    configOk s.cfg = true → offset % 2 = 0 → (s.busy = true → m ≠ .idle) →
    let waits := m = .underWay ∧ s.busy = true ∧ s.latch.hdr = 0x0100#16 ∧ s.panel = .uninit
    (s.inputs = .access (.read offset 16) m :: rest → ¬ waits →
      step s = .next { s with inputs := rest, hostRead := some (if offset = 2 then statusWord s else 0#16) }) ∧
    (s.inputs = .access (.write offset 16 v) m :: rest → offset ≠ 0 → ¬ waits →
      step s = .next { s with inputs := rest }) ∧
    ((s.inputs = .access (.read offset 16) m :: rest ∨
        s.inputs = .access (.write offset 16 v) m :: rest ∧ offset ≠ 0) → waits →
      step s = .next { s with panel := .initializing, seq := { s.seq with phase := .resetPulse } }) ∧
    (s.inputs = .access (.write offset 16 v) m :: rest → offset = 0 → s.busy = false →
      step s = .next (receive v { s with inputs := rest }))

/-- Derived from R44, its sentence on host accesses: any other width or alignment is refused, at whatever moment it is
made. -/
def Obligations.MisshapedAccessRefused : Prop :=
  ∀ (s : State) (offset width : Nat) (v : Word) (m : Moment) (rest : List Input),
    configOk s.cfg = true → (width ≠ 16 ∨ offset % 2 ≠ 0) → (s.busy = true → m ≠ .idle) →
    (s.inputs = .access (.read offset width) m :: rest ∨ s.inputs = .access (.write offset width v) m :: rest) →
    step s = .refused .hostAccessShape

/-- R9: a configuration of no size or over 32767 in either direction is refused. -/
def Obligations.BadSizeRefused : Prop :=
  ∀ s : State, (s.cfg.w < 1 ∨ s.cfg.h < 1 ∨ s.cfg.w > 32767 ∨ s.cfg.h > 32767) → step s = .refused .badConfiguration

/-- Derived from R77 and R108: the ROMs a model must refuse. that a glyph has 8 bytes and a data list at most 255 is in
the types. -/
def Obligations.BadRomRefused : Prop :=
  ∀ s : State,
    ((∃ ch ∈ charset, (s.cfg.glyphRom.filter fun e => e.1 == ch).length ≠ 1) ∨
      (∃ e ∈ s.cfg.glyphRom, e.1 ∉ charset) ∨
      (∃ g, (0x38#16, g) ∈ s.cfg.glyphRom ∧ g ≠ glyphEight) ∨
      ¬ (∃ pre : List RomEntry, ∃ a b : RomEntry, romEntries s.cfg.initRom = pre ++ [a, b] ∧
          a.cmd = s.cfg.cmds.slpout ∧ a.data = [] ∧ b.cmd = s.cfg.cmds.dispon ∧ b.data = [])) →
    step s = .refused .badConfiguration

/-! ### Reset (spec/10_state.md R37, spec/70_reset_and_hazards.md R140) -/

/-- R37: the reset values it gives, under every configuration; it gives none for `HDR` and the rasterizer's registers.
-/
def Obligations.ResetValues : Prop :=
  ∀ (p : Params) (e : BusEnv) (is : List Input) (r : Option Word),
    let s := State.resetWith p e is r
    s.panel = .uninit ∧ s.busy = false ∧ s.result = .ok ∧ statusWord s = 0x0000#16 ∧
    s.lines.csN = true ∧ s.lines.dc = false ∧ s.lines.rstN = true ∧ s.lines.sclk = false ∧ s.lines.mosi = false ∧
    s.trace = [] ∧ (∀ o : Nat, o < p.fbBytes → fbRead s.cfg o s.fb = p.fbResetByte o) ∧
    s.seq.op = none ∧ s.seq.phase = .idle ∧ s.seq.romIdx = 0 ∧ s.seq.byteIdx = 0 ∧
    s.latch.args = [] ∧ s.latch.rxcount = 0 ∧ s.cfg.initRom = p.initRom ∧ s.cfg.glyphRom = p.glyphRom

/-- Derived from R140 (log 13: the reset input is an input of the model): a block reset, whenever it comes, sets every
piece of the block's state to its reset value and leaves the parameters, the environment and the host alone. -/
def Obligations.BlockResetInput : Prop :=
  ∀ (s : State) (rest : List Input), configOk s.cfg = true → s.inputs = .reset :: rest →
    step s = .next (State.resetWith s.cfg s.bus rest s.hostRead)

/-! ### `finish` (spec/00_scope.md R14, spec/60_exceptions.md R133) -/

/-- Derived from R14, R31, R33 and R133: what `finish(code)` writes and what it leaves; no claim on the registers of R32.
That it keeps `HDR` is the model's choice (log 11). -/
def Obligations.FinishEffect : Prop :=
  ∀ (code : ResultCode) (s : State),
    let t := finish code s
    t.result = code ∧ t.busy = false ∧ t.seq = { op := none, phase := .idle, romIdx := 0, byteIdx := 0 } ∧
    t.latch = { s.latch with args := [] } ∧
    t.panel = s.panel ∧ t.lines = s.lines ∧ t.trace = s.trace ∧ t.fb = s.fb ∧ t.cfg = s.cfg ∧ t.bus = s.bus ∧
    t.inputs = s.inputs ∧ t.hostRead = s.hostRead

/-! ### Framebuffer operations (spec/41_framebuffer.md) -/

/-- Derived from R92 with R90, R91 and R99: SET_PIXEL completes in every state; its pixel, if inside the panel, holds
the color, every other byte reads as before, and nothing else of the block changes but what `finish(OK)` writes. -/
def Obligations.SetPixelResult : Prop :=
  ∀ (s : State) (x y : Int) (c : Color), fbWf s.cfg s.fb = true →
    ∃ m t, exec (.setPixel x y c) s = .next t ∧ finishedFrom .ok (setFb m s) t ∧
      drawn s.cfg (fun i j => i = x ∧ j = y) c s.fb m

/-- Derived from R93 with R90, R96, R97 and R99: FILL_RECT completes in every state; exactly the pixels of its footprint
inside the panel hold the color. -/
def Obligations.FillRectResult : Prop :=
  ∀ (s : State) (x y w h : Int) (c : Color), fbWf s.cfg s.fb = true →
    ∃ m t, exec (.fillRect x y w h c) s = .next t ∧ finishedFrom .ok (setFb m s) t ∧
      drawn s.cfg (inRect x y w h) c s.fb m

/-- Derived from R94: FILL completes in every state; every pixel holds the color, so every two bytes from each even
offset do. -/
def Obligations.FillResult : Prop :=
  ∀ (s : State) (c : Color), fbWf s.cfg s.fb = true →
    ∃ m t, exec (.fill c) s = .next t ∧ finishedFrom .ok (setFb m s) t ∧
      drawn s.cfg (fun _ _ => True) c s.fb m ∧
      ∀ k, 2 * k < s.cfg.fbBytes → fbRead s.cfg (2 * k) m = firstByte s.cfg.byteOrder c ∧
        fbRead s.cfg (2 * k + 1) m = secondByte s.cfg.byteOrder c

/-- Derived from R70: the two equalities of effect, of whole outcomes, while the encodings stay distinct. -/
def Obligations.EqualEffects : Prop :=
  (∀ (s : State) (c : Color), exec (.fill c) s = exec (.fillRect 0 0 s.cfg.w s.cfg.h c) s) ∧
  (∀ (s : State) (x y : Int) (c : Color), exec (.setPixel x y c) s = exec (.fillRect x y 1 1 c) s) ∧
  (∀ (x y w h : Int) (c c' : Color), encode (.fill c) ≠ encode (.fillRect x y w h c') ∧
    encode (.setPixel x y c) ≠ encode (.fillRect x y w h c'))

/-- Derived from R97: the rectangle computed over the clipped bounds leaves the same framebuffer as the loop over the
whole footprint, each pixel clipped by itself, for every rectangle and every framebuffer. -/
def Obligations.ClippedRectAgreesWithLoop : Prop :=
  ∀ (p : Params) (x y w h : Int) (c : Color) (m : List Host.Cell), fillRectClip p x y w h c m = fillRectLoop p x y w h c m

/-- Derived from R95: a color is stored as given: a pixel read back after it is plotted is the color, under either byte
order. -/
def Obligations.PixelReadsBackAsWritten : Prop :=
  ∀ (p : Params) (x y : Nat) (c : Color) (m : List Host.Cell), fbWf p m = true → x < p.w → y < p.h →
    pixRead p x y (plotPixel p x y c m) = c

/-- Derived from R98 and R96: a rectangle with no size, or wholly outside the panel, writes nothing and finishes OK; one
that covers the panel equals FILL; no end of a rectangle wraps. -/
def Obligations.RectangleExtremes : Prop :=
  ∀ (s : State) (x y w h : Int) (c : Color),
    ((w ≤ 0 ∨ h ≤ 0 ∨ x + w ≤ 0 ∨ (s.cfg.w : Int) ≤ x ∨ y + h ≤ 0 ∨ (s.cfg.h : Int) ≤ y) →
      ∃ t, exec (.fillRect x y w h c) s = .next t ∧ finishedFrom .ok s t) ∧
    ((x ≤ 0 ∧ y ≤ 0 ∧ (s.cfg.w : Int) ≤ x + w ∧ (s.cfg.h : Int) ≤ y + h) →
      exec (.fillRect x y w h c) s = exec (.fill c) s)

/-- Derived from R41 and R44: the offsets of the panel's pixels are even, at most `FB_BYTES-2`, distinct for distinct
pixels, and every framebuffer byte belongs to a pixel. -/
def Obligations.PixelsTileTheFramebuffer : Prop :=
  ∀ p : Params,
    (∀ i j : Nat, i < p.w → j < p.h → pixOff p i j % 2 = 0 ∧ pixOff p i j + 2 ≤ p.fbBytes) ∧
    (∀ i j i' j' : Nat, i < p.w → i' < p.w → pixOff p i j = pixOff p i' j' → i = i' ∧ j = j') ∧
    (∀ a : Nat, a < p.fbBytes → ∃ i j : Nat, i < p.w ∧ j < p.h ∧ (a = pixOff p i j ∨ a = pixOff p i j + 1))

/-- Derived from R127: what a drawing operation leaves in the framebuffer depends on the parameters and the framebuffer
alone: not on the panel's state, the lines, the trace, the bus or the last result. -/
def Obligations.DrawingIgnoresPanel : Prop :=
  ∀ (i : Instr) (s s' : State), drawsOnly i = true → s.cfg = s'.cfg → s.fb = s'.fb →
    ∃ t t', exec i s = .next t ∧ exec i s' = .next t' ∧ t.fb = t'.fb

/-! ### The rasterizer (spec/40_rasterizer.md) -/

/-- Derived from R82 with R76 to R81, R83, R84, R86 and R87: DRAW_TEXT completes in every state, for every string, scale
and origin; exactly the pixels of its blocks inside the panel hold the color (log 17 on a scale below 1). -/
def Obligations.DrawTextResult : Prop :=
  ∀ (s : State) (mirror : Bool) (x y : Int) (c : Color) (sx sy : Int) (chars : List Word), fbWf s.cfg s.fb = true →
    ∃ m t, exec (.drawText mirror x y c sx sy chars) s = .next t ∧ finishedFrom .ok (setFb m s) t ∧
      drawn s.cfg (inText s.cfg mirror x y sx sy chars) c s.fb m

/-- Derived from R83, R84 and R85: a scale below 1, a string of unsupported codes only, and the empty string write
nothing and finish OK; the empty string's packet is 7 words long. -/
def Obligations.TextThatDrawsNothing : Prop :=
  (∀ (s : State) (mirror : Bool) (x y : Int) (c : Color) (sx sy : Int) (chars : List Word),
    (sx ≤ 0 ∨ sy ≤ 0 ∨ chars = [] ∨ ∀ ch ∈ chars, ch ∉ charset) →
    ∃ t, exec (.drawText mirror x y c sx sy chars) s = .next t ∧ finishedFrom .ok s t) ∧
  (∀ (mirror : Bool) (x y : Int) (c : Color) (sx sy : Int), (encode (.drawText mirror x y c sx sy [])).length = 7)

/-- R79: after `n` characters, supported or not, the pen has advanced by `n * 9 * sx`, whatever `sy` is. -/
def Obligations.PenAdvance : Prop :=
  ∀ (t : TextStyle) (chars : List Word) (k : Nat) (s : State),
    (drawChars t chars k s).raster.penX = s.raster.penX + chars.length * 9 * t.sx

/-- Derived from R81: mirroring reverses the columns of a glyph about the centre of its 8 columns: from a framebuffer
that is the same in two mirrored pixels, the mirrored draw leaves in the one what the unmirrored draw leaves in the
other. -/
def Obligations.MirrorReversesColumns : Prop :=
  ∀ (s t t' : State) (x y : Int) (c : Color) (sx sy : Int) (ch : Word) (i i' j : Nat),
    fbWf s.cfg s.fb = true → i < s.cfg.w → i' < s.cfg.w → j < s.cfg.h →
    (i : Int) + i' = 2 * x + 8 * sx - 1 → pixRead s.cfg i j s.fb = pixRead s.cfg i' j s.fb →
    exec (.drawText true x y c sx sy [ch]) s = .next t → exec (.drawText false x y c sx sy [ch]) s = .next t' →
    pixRead s.cfg i j t.fb = pixRead s.cfg i' j t'.fb

/-- R76 (with R75), in every configuration the model runs: exactly the codes of `CHARSET` have a glyph, the lookup of
one of them gives its entry of `GLYPH_ROM` and of any other code nothing; and (R77) '8' has the glyph the source gives.
-/
def Obligations.CharacterSetIsClosed : Prop :=
  ∀ p : Params, configOk p = true →
    (∀ ch : Word, (glyphLookup p ch).isSome = true ↔
      ch = 0x2F#16 ∨ (0x30#16 ≤ ch ∧ ch ≤ 0x39#16) ∨ ch = 0x3A#16) ∧
    (∀ (ch : Word) (g : GlyphRows), glyphLookup p ch = some g ↔ (ch, g) ∈ p.glyphRom) ∧
    glyphLookup p 0x38#16 = some ⟨0x3E#8, 0x63#8, 0x63#8, 0x3E#8, 0x63#8, 0x63#8, 0x63#8, 0x3E#8⟩

/-- Derived from R78: the picture of '8' under MSB_FIRST, row by row, and its 35 set bits. -/
def Obligations.GlyphEightPicture : Prop :=
  let bits := fun r => (List.range 8).map fun k => glyphBit .msbFirst (glyphRow glyphEight r) k
  let bar := [false, false, true, true, true, true, true, false]
  let sides := [false, true, true, false, false, false, true, true]
  (List.range 8).map bits = [bar, sides, sides, bar, sides, sides, sides, bar] ∧
  (((List.range 8).map bits).flatten.filter id).length = 35

/-! ### The bus (spec/42_panel.md) -/

/-- R103 and R43: the waveform of one byte carries its bits, most significant first, one on each rising clock edge;
`Shift` drives it, so leaves the clock low and `MOSI` at bit 0, appends one `Byte` event and changes nothing else. -/
def Obligations.WaveformCarriesByte : Prop :=
  ∀ (v : Byte) (level : Bool) (s : State),
    sampled level (waveform v) = [v.getLsbD 7, v.getLsbD 6, v.getLsbD 5, v.getLsbD 4, v.getLsbD 3, v.getLsbD 2,
      v.getLsbD 1, v.getLsbD 0] ∧
    ((waveform v).filter fun e => match e with | .sclk b => b | .mosi _ => false).length = 8 ∧
    shift v s = { s with
      lines := (waveform v).foldl driveWave s.lines
      trace := s.trace ++ [.byte v] } ∧
    (shift v s).lines = { s.lines with sclk := false, mosi := v.getLsbD 0 }

/-- Derived from R102: the events of one frame, all its bytes where the draw is `ok`, the drawn prefix where it is not;
the draw is taken once, and nothing but the lines, the trace and `BYTE_IDX` changes. -/
def Obligations.FrameEventsAndReply : Prop :=
  ∀ (s : State) (dc : Bool) (bytes : List Byte),
    (s.bus.drawAt s.bus.taken = .ok →
      ∃ n, frame dc bytes s = (setByteIdx n (sent (frameEvents (dc, bytes)) 1 s), .ok)) ∧
    (∀ k, s.bus.drawAt s.bus.taken = .fault k →
      ∃ n, frame dc bytes s = (setByteIdx n (sent (frameEvents (dc, bytes.take k)) 1 s), .fault))

/-- Derived from R113: `Be16` and the full-panel window; 00 00 01 3F and 00 00 00 EF in the reference configuration. -/
def Obligations.WindowBytes : Prop :=
  (∀ v : Nat, v ≤ 65535 → ∃ hi lo : Byte, be16 v = [hi, lo] ∧ hi.toNat * 256 + lo.toNat = v) ∧
  (∀ n : Nat, axisWindow n = be16 0 ++ be16 (n - 1)) ∧
  axisWindow Params.reference.w = [0x00#8, 0x00#8, 0x01#8, 0x3F#8] ∧
  axisWindow Params.reference.h = [0x00#8, 0x00#8, 0x00#8, 0xEF#8]

/-! ### INIT -/

/-- Derived from R109 to R112: an INIT that UNINIT admits, or that has been accepted already (log 6), and whose frames are
all sent appends the reset pulse and then the frames of the ROM entries in order, and leaves READY and OK; nothing else changes. -/
def Obligations.InitBringsPanelUp : Prop :=
  ∀ s : State, s.panel = .uninit ∨ initAccepted s = true → busClean s (initFrames s.cfg).length →
    ∃ t, exec .init s = .next t ∧ finishedFrom .ok (setPanel .ready
      (sent (pulseEvents ++ framesEvents (initFrames s.cfg)) (initFrames s.cfg).length s)) t

/-- Derived from R124 with R105 and R111: an INIT whose frame `k` is the first to fail has sent the pulse, the frames
before it and a prefix of it, and nothing after; STATE is UNINIT and the result BUS_FAULT. -/
def Obligations.InitBusFault : Prop :=
  ∀ (s : State) (k p : Nat) (f : Frame), s.panel = .uninit ∨ initAccepted s = true →
    (initFrames s.cfg)[k]? = some f → busFaultsAt s k p →
    ∃ t, exec .init s = .next t ∧ finishedFrom .busFault (setPanel .uninit
      (sent (pulseEvents ++ framesEvents ((initFrames s.cfg).take k) ++ frameEvents (f.1, f.2.take p)) (k + 1) s)) t

/-- Derived from R109 and R127: INIT in another STATE than UNINIT, where it is not accepted already (log 6), is BAD_STATE,
with no trace event and no state change. -/
def Obligations.InitRefusedOutsideUninit : Prop :=
  ∀ s : State, s.panel ≠ .uninit → initAccepted s = false → ∃ t, exec .init s = .next t ∧ finishedFrom .badState s t

/-- Derived from R153 with R152, R102, R106 and R110: an INIT that UNINIT admits, or accepted already (log 6), whose frames
are all sent appends 3 `Pin` events of `RST_N`, 4 `Pin` events for each of its `len(INIT_ROM) + sum of len(data)` frames,
and one `Byte` event for each; read by the projection of R104 what it appends is `len(INIT_ROM)` command frames and
`sum of len(data)` data frames, each of one byte. -/
def Obligations.InitFrameCounts : Prop :=
  ∀ s : State, s.panel = .uninit ∨ initAccepted s = true → busClean s (initFrames s.cfg).length →
    let entries := (romEntries s.cfg.initRom).length
    let data := ((romEntries s.cfg.initRom).map fun e => e.data.length).sum
    ∃ t es, exec .init s = .next t ∧ t.trace = s.trace ++ es ∧
      es.countP (isPinOf .rstN) = 3 ∧ es.countP isPin = 3 + 4 * (entries + data) ∧ es.countP isByte = entries + data ∧
      (traceFramesFrom s.lines.dc none es).countP (fun f => !f.1) = entries ∧
      (traceFramesFrom s.lines.dc none es).countP (fun f => f.1) = data ∧
      ∀ f ∈ traceFramesFrom s.lines.dc none es, f.2.length = 1

/-! ### SHOW -/

/-- Derived from R114 to R117: a SHOW accepted in READY whose frames are all sent appends the window setup and the pixel
stream of the framebuffer as it stands, and finishes OK; STATE stays READY, `fb` and all else are unchanged. -/
def Obligations.ShowSendsImage : Prop :=
  ∀ s : State, s.panel = .ready → busClean s (showFrames s.cfg s.fb).length →
    ∃ t, exec .showPanel s = .next t ∧
      finishedFrom .ok (sent (framesEvents (showFrames s.cfg s.fb)) (showFrames s.cfg s.fb).length s) t

/-- Derived from R123 with R105: a SHOW whose frame `k` is the first to fail has sent the frames before it and a prefix
of it and no later one; `fb` and STATE are unchanged and the result is BUS_FAULT. -/
def Obligations.ShowBusFault : Prop :=
  ∀ (s : State) (k p : Nat) (f : Frame), s.panel = .ready → (showFrames s.cfg s.fb)[k]? = some f → busFaultsAt s k p →
    ∃ t, exec .showPanel s = .next t ∧ finishedFrom .busFault
      (sent (framesEvents ((showFrames s.cfg s.fb).take k) ++ frameEvents (f.1, f.2.take p)) (k + 1) s) t

/-- Derived from R114 and R147: SHOW in another STATE than READY is BAD_STATE, with no trace event. -/
def Obligations.ShowRefusedOutsideReady : Prop :=
  ∀ s : State, s.panel ≠ .ready → ∃ t, exec .showPanel s = .next t ∧ finishedFrom .badState s t

/-- Derived from R118: a SHOW that finishes OK appends exactly 12 frames, in its order, seen through the projections of
R104; that is `11 + W*H*2` bytes, `W*H*2` of them pixels, and 48 `Pin` events, whatever was drawn. -/
def Obligations.ShowTransmitsFullFrame : Prop :=
  ∀ s t : State, framing false s.trace = some false → exec .showPanel s = .next t → t.result = .ok →
    ∃ es, t.trace = s.trace ++ es ∧
      traceFrames t.trace = traceFrames s.trace ++
        [(false, [s.cfg.cmds.caset]), (true, [0x00#8]), (true, [0x00#8]),
          (true, [hiByte (BitVec.ofNat 16 (s.cfg.w - 1))]), (true, [loByte (BitVec.ofNat 16 (s.cfg.w - 1))]),
          (false, [s.cfg.cmds.raset]), (true, [0x00#8]), (true, [0x00#8]),
          (true, [hiByte (BitVec.ofNat 16 (s.cfg.h - 1))]), (true, [loByte (BitVec.ofNat 16 (s.cfg.h - 1))]),
          (false, [s.cfg.cmds.ramwr]), (true, fbBytesOf s.cfg s.fb)] ∧
      (fbBytesOf s.cfg s.fb).length = s.cfg.w * s.cfg.h * 2 ∧
      (traceBytes t.trace).length = (traceBytes s.trace).length + (11 + s.cfg.w * s.cfg.h * 2) ∧
      (es.filter fun e => match e with | .pin _ _ => true | .byte _ => false).length = 48

/-! ### Whole-machine rules -/

/-- Derived from R22, R26, R27, R28, R31, R33 and R37, and log 2 for the reference configuration: the reset state meets
the invariant. -/
def Obligations.ResetMeetsInvariant : Prop := Inv State.reset

/-- Derived from R9, R23, R26, R27, R28, R31, R33, R73 and R102: every step from a state that meets the invariant leaves
one that does: canonical framebuffer, INITIALIZING held only inside INIT, lines as the trace left them, bytes only
inside frames, panel deselected and out of reset, sequencer idle but for the accepted operation (log 23 for an illegal
one; log 6 for an INIT already accepted), latch partial or whole. -/
def Obligations.StepKeepsInvariant : Prop := ∀ s t : State, Inv s → step s = .next t → Inv t

/-- Derived from R14, R20, R44 and R133: the block has no trap. From a state that meets the invariant no step faults,
and the only step refused is a host access of another width or alignment that lands. -/
def Obligations.NoStepFaults : Prop :=
  ∀ s : State, Inv s →
    (∀ f, step s ≠ .fault f) ∧
    (∀ r, step s = .refused r → r = .hostAccessShape ∧ ∃ m rest offset width v, (width ≠ 16 ∨ offset % 2 ≠ 0) ∧
      (s.inputs = .access (.read offset width) m :: rest ∨ s.inputs = .access (.write offset width v) m :: rest))

/-- R151 with R29 and R30: no step changes a parameter, the ROMs among them. -/
def Obligations.ConfigurationIsFixed : Prop := ∀ s t : State, step s = .next t → t.cfg = s.cfg

/-- Derived from R27: `TRACE` is append-only: but for a block reset, which empties it, a step keeps every event in its
place. -/
def Obligations.TraceOnlyGrows : Prop :=
  ∀ s t : State, step s = .next t →
    (∃ es, t.trace = s.trace ++ es) ∨ (∃ rest, nextInput s = some (.reset, rest) ∧ t.trace = [])

/-- Derived from R144 and R23: a READY block stays READY until a block reset, and STATE becomes READY only by an INIT that finished
OK, admitted by UNINIT or accepted already (log 6). -/
def Obligations.ReadyLastsUntilReset : Prop :=
  ∀ s t : State, step s = .next t → (∀ rest, nextInput s ≠ some (.reset, rest)) →
    (s.panel = .ready → t.panel = .ready) ∧
    (s.panel ≠ .ready → t.panel = .ready →
      (s.panel = .uninit ∨ initAccepted s = true) ∧ s.busy = true ∧ s.latch.hdr = 0x0100#16 ∧ t.result = .ok)

/-- Derived from R40 (its first item) and R45: the framebuffer changes only at a block reset or where a drawing
operation is performed; in particular INIT, SHOW, illegal packets and host accesses leave it. -/
def Obligations.OnlyDrawingWritesFramebuffer : Prop :=
  ∀ s t : State, step s = .next t → t.fb ≠ s.fb →
    (∃ rest, nextInput s = some (.reset, rest)) ∨
    (s.busy = true ∧ noInput s ∧ ∃ i, decode s.latch.hdr s.latch.args = .ok i ∧ drawsOnly i = true)

/-- Derived from R128 and R126: only INIT and SHOW reach the bus: a step that draws, receives, serves the host or
reports an illegal packet takes no draw and leaves trace and lines, but for a block reset. -/
def Obligations.OnlyInitAndShowReachTheBus : Prop :=
  ∀ s t : State, step s = .next t → (t.trace ≠ s.trace ∨ t.lines ≠ s.lines ∨ t.bus ≠ s.bus) →
    (∃ rest, nextInput s = some (.reset, rest)) ∨
    (s.busy = true ∧ noInput s ∧
      (s.latch.hdr = 0x0100#16 ∧ (s.panel = .uninit ∨ initAccepted s = true) ∨
        s.latch.hdr = 0x3000#16 ∧ s.panel = .ready))

/-- Derived from R23 with R109, R111 and R112: but for a block reset, STATE changes only within an INIT, and only from UNINIT
to INITIALIZING at its acceptance, from INITIALIZING to READY where it finishes OK and from INITIALIZING to UNINIT where it
finishes with BUS_FAULT. Where no access needs the acceptance in a step of its own (log 6) a step from UNINIT goes through
INITIALIZING, to READY; so whatever a host reads, STATE leaves INITIALIZING only with the INIT's end. -/
def Obligations.PanelStateTransitions : Prop :=
  ∀ s t : State, Inv s → step s = .next t → (∀ rest, nextInput s ≠ some (.reset, rest)) → t.panel ≠ s.panel →
    s.busy = true ∧ s.latch.hdr = 0x0100#16 ∧
    (s.panel = .uninit ∧ t.panel = .initializing ∧ t.busy = true ∧ t.latch = s.latch ∧ t.trace = s.trace ∨
      s.panel = .uninit ∧ t.panel = .ready ∧ t.busy = false ∧ t.result = .ok ∨
      s.panel = .initializing ∧ t.panel = .ready ∧ t.busy = false ∧ t.result = .ok ∨
      s.panel = .initializing ∧ t.panel = .uninit ∧ t.busy = false ∧ t.result = .busFault)
end

