-- ==== Sys2Proof/Laws/State.lean ====
section
/-! SUPPORT. One lemma per field per update of State, so that no later proof unfolds a record update. -/

namespace Sys2Proof.Machine

@[simp] theorem finish_panel (code : ResultCode) (s : State) : (finish code s).panel = s.panel := rfl
@[simp] theorem finish_busy (code : ResultCode) (s : State) : (finish code s).busy = false := rfl
@[simp] theorem finish_result (code : ResultCode) (s : State) : (finish code s).result = code := rfl
@[simp] theorem finish_lines (code : ResultCode) (s : State) : (finish code s).lines = s.lines := rfl
@[simp] theorem finish_trace (code : ResultCode) (s : State) : (finish code s).trace = s.trace := rfl
@[simp] theorem finish_fb (code : ResultCode) (s : State) : (finish code s).fb = s.fb := rfl
@[simp] theorem finish_seq (code : ResultCode) (s : State) : (finish code s).seq = Seq.idle := rfl
@[simp] theorem finish_raster (code : ResultCode) (s : State) : (finish code s).raster = Raster.notLive := rfl
@[simp] theorem finish_latch (code : ResultCode) (s : State) : (finish code s).latch = { s.latch with args := [] } := rfl
@[simp] theorem finish_cfg (code : ResultCode) (s : State) : (finish code s).cfg = s.cfg := rfl
@[simp] theorem finish_bus (code : ResultCode) (s : State) : (finish code s).bus = s.bus := rfl
@[simp] theorem finish_inputs (code : ResultCode) (s : State) : (finish code s).inputs = s.inputs := rfl
@[simp] theorem finish_hostRead (code : ResultCode) (s : State) : (finish code s).hostRead = s.hostRead := rfl

@[simp] theorem setPanel_panel (v : PanelState) (s : State) : (setPanel v s).panel = v := rfl
@[simp] theorem setPanel_busy (v : PanelState) (s : State) : (setPanel v s).busy = s.busy := rfl
@[simp] theorem setPanel_result (v : PanelState) (s : State) : (setPanel v s).result = s.result := rfl
@[simp] theorem setPanel_lines (v : PanelState) (s : State) : (setPanel v s).lines = s.lines := rfl
@[simp] theorem setPanel_trace (v : PanelState) (s : State) : (setPanel v s).trace = s.trace := rfl
@[simp] theorem setPanel_fb (v : PanelState) (s : State) : (setPanel v s).fb = s.fb := rfl
@[simp] theorem setPanel_seq (v : PanelState) (s : State) : (setPanel v s).seq = s.seq := rfl
@[simp] theorem setPanel_raster (v : PanelState) (s : State) : (setPanel v s).raster = s.raster := rfl
@[simp] theorem setPanel_latch (v : PanelState) (s : State) : (setPanel v s).latch = s.latch := rfl
@[simp] theorem setPanel_cfg (v : PanelState) (s : State) : (setPanel v s).cfg = s.cfg := rfl
@[simp] theorem setPanel_bus (v : PanelState) (s : State) : (setPanel v s).bus = s.bus := rfl
@[simp] theorem setPanel_inputs (v : PanelState) (s : State) : (setPanel v s).inputs = s.inputs := rfl
@[simp] theorem setPanel_hostRead (v : PanelState) (s : State) : (setPanel v s).hostRead = s.hostRead := rfl

@[simp] theorem setPhase_panel (v : Phase) (s : State) : (setPhase v s).panel = s.panel := rfl
@[simp] theorem setPhase_busy (v : Phase) (s : State) : (setPhase v s).busy = s.busy := rfl
@[simp] theorem setPhase_result (v : Phase) (s : State) : (setPhase v s).result = s.result := rfl
@[simp] theorem setPhase_lines (v : Phase) (s : State) : (setPhase v s).lines = s.lines := rfl
@[simp] theorem setPhase_trace (v : Phase) (s : State) : (setPhase v s).trace = s.trace := rfl
@[simp] theorem setPhase_fb (v : Phase) (s : State) : (setPhase v s).fb = s.fb := rfl
@[simp] theorem setPhase_seq (v : Phase) (s : State) : (setPhase v s).seq = { s.seq with phase := v } := rfl
@[simp] theorem setPhase_raster (v : Phase) (s : State) : (setPhase v s).raster = s.raster := rfl
@[simp] theorem setPhase_latch (v : Phase) (s : State) : (setPhase v s).latch = s.latch := rfl
@[simp] theorem setPhase_cfg (v : Phase) (s : State) : (setPhase v s).cfg = s.cfg := rfl
@[simp] theorem setPhase_bus (v : Phase) (s : State) : (setPhase v s).bus = s.bus := rfl
@[simp] theorem setPhase_inputs (v : Phase) (s : State) : (setPhase v s).inputs = s.inputs := rfl
@[simp] theorem setPhase_hostRead (v : Phase) (s : State) : (setPhase v s).hostRead = s.hostRead := rfl

@[simp] theorem setRomIdx_panel (n : Nat) (s : State) : (setRomIdx n s).panel = s.panel := rfl
@[simp] theorem setRomIdx_busy (n : Nat) (s : State) : (setRomIdx n s).busy = s.busy := rfl
@[simp] theorem setRomIdx_result (n : Nat) (s : State) : (setRomIdx n s).result = s.result := rfl
@[simp] theorem setRomIdx_lines (n : Nat) (s : State) : (setRomIdx n s).lines = s.lines := rfl
@[simp] theorem setRomIdx_trace (n : Nat) (s : State) : (setRomIdx n s).trace = s.trace := rfl
@[simp] theorem setRomIdx_fb (n : Nat) (s : State) : (setRomIdx n s).fb = s.fb := rfl
@[simp] theorem setRomIdx_seq (n : Nat) (s : State) : (setRomIdx n s).seq = { s.seq with romIdx := n } := rfl
@[simp] theorem setRomIdx_raster (n : Nat) (s : State) : (setRomIdx n s).raster = s.raster := rfl
@[simp] theorem setRomIdx_latch (n : Nat) (s : State) : (setRomIdx n s).latch = s.latch := rfl
@[simp] theorem setRomIdx_cfg (n : Nat) (s : State) : (setRomIdx n s).cfg = s.cfg := rfl
@[simp] theorem setRomIdx_bus (n : Nat) (s : State) : (setRomIdx n s).bus = s.bus := rfl
@[simp] theorem setRomIdx_inputs (n : Nat) (s : State) : (setRomIdx n s).inputs = s.inputs := rfl
@[simp] theorem setRomIdx_hostRead (n : Nat) (s : State) : (setRomIdx n s).hostRead = s.hostRead := rfl

@[simp] theorem setByteIdx_panel (n : Nat) (s : State) : (setByteIdx n s).panel = s.panel := rfl
@[simp] theorem setByteIdx_busy (n : Nat) (s : State) : (setByteIdx n s).busy = s.busy := rfl
@[simp] theorem setByteIdx_result (n : Nat) (s : State) : (setByteIdx n s).result = s.result := rfl
@[simp] theorem setByteIdx_lines (n : Nat) (s : State) : (setByteIdx n s).lines = s.lines := rfl
@[simp] theorem setByteIdx_trace (n : Nat) (s : State) : (setByteIdx n s).trace = s.trace := rfl
@[simp] theorem setByteIdx_fb (n : Nat) (s : State) : (setByteIdx n s).fb = s.fb := rfl
@[simp] theorem setByteIdx_seq (n : Nat) (s : State) : (setByteIdx n s).seq = { s.seq with byteIdx := n } := rfl
@[simp] theorem setByteIdx_raster (n : Nat) (s : State) : (setByteIdx n s).raster = s.raster := rfl
@[simp] theorem setByteIdx_latch (n : Nat) (s : State) : (setByteIdx n s).latch = s.latch := rfl
@[simp] theorem setByteIdx_cfg (n : Nat) (s : State) : (setByteIdx n s).cfg = s.cfg := rfl
@[simp] theorem setByteIdx_bus (n : Nat) (s : State) : (setByteIdx n s).bus = s.bus := rfl
@[simp] theorem setByteIdx_inputs (n : Nat) (s : State) : (setByteIdx n s).inputs = s.inputs := rfl
@[simp] theorem setByteIdx_hostRead (n : Nat) (s : State) : (setByteIdx n s).hostRead = s.hostRead := rfl

@[simp] theorem setFb_panel (m : List Host.Cell) (s : State) : (setFb m s).panel = s.panel := rfl
@[simp] theorem setFb_busy (m : List Host.Cell) (s : State) : (setFb m s).busy = s.busy := rfl
@[simp] theorem setFb_result (m : List Host.Cell) (s : State) : (setFb m s).result = s.result := rfl
@[simp] theorem setFb_lines (m : List Host.Cell) (s : State) : (setFb m s).lines = s.lines := rfl
@[simp] theorem setFb_trace (m : List Host.Cell) (s : State) : (setFb m s).trace = s.trace := rfl
@[simp] theorem setFb_fb (m : List Host.Cell) (s : State) : (setFb m s).fb = m := rfl
@[simp] theorem setFb_seq (m : List Host.Cell) (s : State) : (setFb m s).seq = s.seq := rfl
@[simp] theorem setFb_raster (m : List Host.Cell) (s : State) : (setFb m s).raster = s.raster := rfl
@[simp] theorem setFb_latch (m : List Host.Cell) (s : State) : (setFb m s).latch = s.latch := rfl
@[simp] theorem setFb_cfg (m : List Host.Cell) (s : State) : (setFb m s).cfg = s.cfg := rfl
@[simp] theorem setFb_bus (m : List Host.Cell) (s : State) : (setFb m s).bus = s.bus := rfl
@[simp] theorem setFb_inputs (m : List Host.Cell) (s : State) : (setFb m s).inputs = s.inputs := rfl
@[simp] theorem setFb_hostRead (m : List Host.Cell) (s : State) : (setFb m s).hostRead = s.hostRead := rfl

@[simp] theorem pin_panel (l : Line) (b : Bool) (s : State) : (pin l b s).panel = s.panel := rfl
@[simp] theorem pin_busy (l : Line) (b : Bool) (s : State) : (pin l b s).busy = s.busy := rfl
@[simp] theorem pin_result (l : Line) (b : Bool) (s : State) : (pin l b s).result = s.result := rfl
@[simp] theorem pin_lines (l : Line) (b : Bool) (s : State) : (pin l b s).lines = driveLine l b s.lines := rfl
@[simp] theorem pin_trace (l : Line) (b : Bool) (s : State) : (pin l b s).trace = s.trace ++ [.pin l b] := rfl
@[simp] theorem pin_fb (l : Line) (b : Bool) (s : State) : (pin l b s).fb = s.fb := rfl
@[simp] theorem pin_seq (l : Line) (b : Bool) (s : State) : (pin l b s).seq = s.seq := rfl
@[simp] theorem pin_raster (l : Line) (b : Bool) (s : State) : (pin l b s).raster = s.raster := rfl
@[simp] theorem pin_latch (l : Line) (b : Bool) (s : State) : (pin l b s).latch = s.latch := rfl
@[simp] theorem pin_cfg (l : Line) (b : Bool) (s : State) : (pin l b s).cfg = s.cfg := rfl
@[simp] theorem pin_bus (l : Line) (b : Bool) (s : State) : (pin l b s).bus = s.bus := rfl
@[simp] theorem pin_inputs (l : Line) (b : Bool) (s : State) : (pin l b s).inputs = s.inputs := rfl
@[simp] theorem pin_hostRead (l : Line) (b : Bool) (s : State) : (pin l b s).hostRead = s.hostRead := rfl

@[simp] theorem shift_panel (v : Byte) (s : State) : (shift v s).panel = s.panel := by rw [shift]
@[simp] theorem shift_busy (v : Byte) (s : State) : (shift v s).busy = s.busy := by rw [shift]
@[simp] theorem shift_result (v : Byte) (s : State) : (shift v s).result = s.result := by rw [shift]
theorem waveform_foldl (v : Byte) (ls : Lines) : (waveform v).foldl driveWave ls = lineAfter ls (.byte v) := by
  simp [waveform, driveWave, lineAfter]

@[simp] theorem shift_lines (v : Byte) (s : State) : (shift v s).lines = lineAfter s.lines (.byte v) := by
  rw [shift, ← waveform_foldl]
@[simp] theorem shift_trace (v : Byte) (s : State) : (shift v s).trace = s.trace ++ [.byte v] := by rw [shift]
@[simp] theorem shift_fb (v : Byte) (s : State) : (shift v s).fb = s.fb := by rw [shift]
@[simp] theorem shift_seq (v : Byte) (s : State) : (shift v s).seq = s.seq := by rw [shift]
@[simp] theorem shift_raster (v : Byte) (s : State) : (shift v s).raster = s.raster := by rw [shift]
@[simp] theorem shift_latch (v : Byte) (s : State) : (shift v s).latch = s.latch := by rw [shift]
@[simp] theorem shift_cfg (v : Byte) (s : State) : (shift v s).cfg = s.cfg := by rw [shift]
@[simp] theorem shift_bus (v : Byte) (s : State) : (shift v s).bus = s.bus := by rw [shift]
@[simp] theorem shift_inputs (v : Byte) (s : State) : (shift v s).inputs = s.inputs := by rw [shift]
@[simp] theorem shift_hostRead (v : Byte) (s : State) : (shift v s).hostRead = s.hostRead := by rw [shift]

@[simp] theorem takeDraw_panel (s : State) : (takeDraw s).panel = s.panel := rfl
@[simp] theorem takeDraw_busy (s : State) : (takeDraw s).busy = s.busy := rfl
@[simp] theorem takeDraw_result (s : State) : (takeDraw s).result = s.result := rfl
@[simp] theorem takeDraw_lines (s : State) : (takeDraw s).lines = s.lines := rfl
@[simp] theorem takeDraw_trace (s : State) : (takeDraw s).trace = s.trace := rfl
@[simp] theorem takeDraw_fb (s : State) : (takeDraw s).fb = s.fb := rfl
@[simp] theorem takeDraw_seq (s : State) : (takeDraw s).seq = s.seq := rfl
@[simp] theorem takeDraw_raster (s : State) : (takeDraw s).raster = s.raster := rfl
@[simp] theorem takeDraw_latch (s : State) : (takeDraw s).latch = s.latch := rfl
@[simp] theorem takeDraw_cfg (s : State) : (takeDraw s).cfg = s.cfg := rfl
@[simp] theorem takeDraw_bus (s : State) : (takeDraw s).bus = { s.bus with taken := s.bus.taken + 1 } := rfl
@[simp] theorem takeDraw_inputs (s : State) : (takeDraw s).inputs = s.inputs := rfl
@[simp] theorem takeDraw_hostRead (s : State) : (takeDraw s).hostRead = s.hostRead := rfl

@[simp] theorem setPen_panel (v : Int) (s : State) : (setPen v s).panel = s.panel := rfl
@[simp] theorem setPen_busy (v : Int) (s : State) : (setPen v s).busy = s.busy := rfl
@[simp] theorem setPen_result (v : Int) (s : State) : (setPen v s).result = s.result := rfl
@[simp] theorem setPen_lines (v : Int) (s : State) : (setPen v s).lines = s.lines := rfl
@[simp] theorem setPen_trace (v : Int) (s : State) : (setPen v s).trace = s.trace := rfl
@[simp] theorem setPen_fb (v : Int) (s : State) : (setPen v s).fb = s.fb := rfl
@[simp] theorem setPen_seq (v : Int) (s : State) : (setPen v s).seq = s.seq := rfl
@[simp] theorem setPen_raster (v : Int) (s : State) : (setPen v s).raster = { s.raster with penX := v } := rfl
@[simp] theorem setPen_latch (v : Int) (s : State) : (setPen v s).latch = s.latch := rfl
@[simp] theorem setPen_cfg (v : Int) (s : State) : (setPen v s).cfg = s.cfg := rfl
@[simp] theorem setPen_bus (v : Int) (s : State) : (setPen v s).bus = s.bus := rfl
@[simp] theorem setPen_inputs (v : Int) (s : State) : (setPen v s).inputs = s.inputs := rfl
@[simp] theorem setPen_hostRead (v : Int) (s : State) : (setPen v s).hostRead = s.hostRead := rfl

@[simp] theorem setCharIdx_panel (n : Nat) (s : State) : (setCharIdx n s).panel = s.panel := rfl
@[simp] theorem setCharIdx_busy (n : Nat) (s : State) : (setCharIdx n s).busy = s.busy := rfl
@[simp] theorem setCharIdx_result (n : Nat) (s : State) : (setCharIdx n s).result = s.result := rfl
@[simp] theorem setCharIdx_lines (n : Nat) (s : State) : (setCharIdx n s).lines = s.lines := rfl
@[simp] theorem setCharIdx_trace (n : Nat) (s : State) : (setCharIdx n s).trace = s.trace := rfl
@[simp] theorem setCharIdx_fb (n : Nat) (s : State) : (setCharIdx n s).fb = s.fb := rfl
@[simp] theorem setCharIdx_seq (n : Nat) (s : State) : (setCharIdx n s).seq = s.seq := rfl
@[simp] theorem setCharIdx_raster (n : Nat) (s : State) : (setCharIdx n s).raster = { s.raster with charIdx := n } := rfl
@[simp] theorem setCharIdx_latch (n : Nat) (s : State) : (setCharIdx n s).latch = s.latch := rfl
@[simp] theorem setCharIdx_cfg (n : Nat) (s : State) : (setCharIdx n s).cfg = s.cfg := rfl
@[simp] theorem setCharIdx_bus (n : Nat) (s : State) : (setCharIdx n s).bus = s.bus := rfl
@[simp] theorem setCharIdx_inputs (n : Nat) (s : State) : (setCharIdx n s).inputs = s.inputs := rfl
@[simp] theorem setCharIdx_hostRead (n : Nat) (s : State) : (setCharIdx n s).hostRead = s.hostRead := rfl

@[simp] theorem setCell_panel (r k : Nat) (s : State) : (setCell r k s).panel = s.panel := rfl
@[simp] theorem setCell_busy (r k : Nat) (s : State) : (setCell r k s).busy = s.busy := rfl
@[simp] theorem setCell_result (r k : Nat) (s : State) : (setCell r k s).result = s.result := rfl
@[simp] theorem setCell_lines (r k : Nat) (s : State) : (setCell r k s).lines = s.lines := rfl
@[simp] theorem setCell_trace (r k : Nat) (s : State) : (setCell r k s).trace = s.trace := rfl
@[simp] theorem setCell_fb (r k : Nat) (s : State) : (setCell r k s).fb = s.fb := rfl
@[simp] theorem setCell_seq (r k : Nat) (s : State) : (setCell r k s).seq = s.seq := rfl
@[simp] theorem setCell_raster (r k : Nat) (s : State) : (setCell r k s).raster = { s.raster with row := r, col := k } := rfl
@[simp] theorem setCell_latch (r k : Nat) (s : State) : (setCell r k s).latch = s.latch := rfl
@[simp] theorem setCell_cfg (r k : Nat) (s : State) : (setCell r k s).cfg = s.cfg := rfl
@[simp] theorem setCell_bus (r k : Nat) (s : State) : (setCell r k s).bus = s.bus := rfl
@[simp] theorem setCell_inputs (r k : Nat) (s : State) : (setCell r k s).inputs = s.inputs := rfl
@[simp] theorem setCell_hostRead (r k : Nat) (s : State) : (setCell r k s).hostRead = s.hostRead := rfl

@[simp] theorem advancePen_panel (sx : Int) (s : State) : (advancePen sx s).panel = s.panel := rfl
@[simp] theorem advancePen_busy (sx : Int) (s : State) : (advancePen sx s).busy = s.busy := rfl
@[simp] theorem advancePen_result (sx : Int) (s : State) : (advancePen sx s).result = s.result := rfl
@[simp] theorem advancePen_lines (sx : Int) (s : State) : (advancePen sx s).lines = s.lines := rfl
@[simp] theorem advancePen_trace (sx : Int) (s : State) : (advancePen sx s).trace = s.trace := rfl
@[simp] theorem advancePen_fb (sx : Int) (s : State) : (advancePen sx s).fb = s.fb := rfl
@[simp] theorem advancePen_seq (sx : Int) (s : State) : (advancePen sx s).seq = s.seq := rfl
@[simp] theorem advancePen_raster (sx : Int) (s : State) : (advancePen sx s).raster = { s.raster with penX := s.raster.penX + 9 * sx } := rfl
@[simp] theorem advancePen_latch (sx : Int) (s : State) : (advancePen sx s).latch = s.latch := rfl
@[simp] theorem advancePen_cfg (sx : Int) (s : State) : (advancePen sx s).cfg = s.cfg := rfl
@[simp] theorem advancePen_bus (sx : Int) (s : State) : (advancePen sx s).bus = s.bus := rfl
@[simp] theorem advancePen_inputs (sx : Int) (s : State) : (advancePen sx s).inputs = s.inputs := rfl
@[simp] theorem advancePen_hostRead (sx : Int) (s : State) : (advancePen sx s).hostRead = s.hostRead := rfl

@[simp] theorem acceptInit_panel (s : State) : (acceptInit s).panel = .initializing := rfl
@[simp] theorem acceptInit_seq (s : State) : (acceptInit s).seq = { s.seq with phase := .resetPulse } := rfl
@[simp] theorem acceptInit_busy (s : State) : (acceptInit s).busy = s.busy := rfl
@[simp] theorem acceptInit_result (s : State) : (acceptInit s).result = s.result := rfl
@[simp] theorem acceptInit_lines (s : State) : (acceptInit s).lines = s.lines := rfl
@[simp] theorem acceptInit_trace (s : State) : (acceptInit s).trace = s.trace := rfl
@[simp] theorem acceptInit_fb (s : State) : (acceptInit s).fb = s.fb := rfl
@[simp] theorem acceptInit_raster (s : State) : (acceptInit s).raster = s.raster := rfl
@[simp] theorem acceptInit_latch (s : State) : (acceptInit s).latch = s.latch := rfl
@[simp] theorem acceptInit_cfg (s : State) : (acceptInit s).cfg = s.cfg := rfl
@[simp] theorem acceptInit_bus (s : State) : (acceptInit s).bus = s.bus := rfl
@[simp] theorem acceptInit_inputs (s : State) : (acceptInit s).inputs = s.inputs := rfl
@[simp] theorem acceptInit_hostRead (s : State) : (acceptInit s).hostRead = s.hostRead := rfl

@[simp] theorem initAccepted_acceptInit (s : State) : initAccepted (acceptInit s) = true := rfl

theorem initAccepted_iff {s : State} : initAccepted s = true ↔ s.panel = .initializing ∧ s.seq.phase = .resetPulse := by
  simp [initAccepted]

theorem initWaits_iff {s : State} : initWaits s = true ↔ s.busy = true ∧ s.latch.hdr = 0x0100#16 ∧ s.panel = .uninit := by
  simp only [initWaits, Bool.and_eq_true, decide_eq_true_eq, and_assoc]
  rfl

/-- What INIT does is the same from before its acceptance and from after it. -/
theorem bringUp_acceptInit (s : State) : bringUp (acceptInit s) = bringUp s := rfl

/-- INIT is brought up where STATE admits it or it has been accepted already (R109). -/
theorem execInit_admitted {s : State} (h : s.panel = .uninit ∨ initAccepted s = true) : execInit s = .next (bringUp s) := by
  obtain h | h := h
  · simp only [execInit, h]
  · simp only [execInit, (initAccepted_iff.1 h).1, h, if_true]

/-- INIT is BAD_STATE anywhere else (R109). -/
theorem execInit_refused {s : State} (h : s.panel ≠ .uninit) (ha : initAccepted s = false) :
    execInit s = .next (finish .badState s) := by
  unfold execInit
  split <;> simp_all

@[simp] theorem sent_panel (es : List Event) (n : Nat) (s : State) : (sent es n s).panel = s.panel := rfl
@[simp] theorem sent_busy (es : List Event) (n : Nat) (s : State) : (sent es n s).busy = s.busy := rfl
@[simp] theorem sent_result (es : List Event) (n : Nat) (s : State) : (sent es n s).result = s.result := rfl
@[simp] theorem sent_lines (es : List Event) (n : Nat) (s : State) : (sent es n s).lines = linesAfter s.lines es := rfl
@[simp] theorem sent_trace (es : List Event) (n : Nat) (s : State) : (sent es n s).trace = s.trace ++ es := rfl
@[simp] theorem sent_fb (es : List Event) (n : Nat) (s : State) : (sent es n s).fb = s.fb := rfl
@[simp] theorem sent_seq (es : List Event) (n : Nat) (s : State) : (sent es n s).seq = s.seq := rfl
@[simp] theorem sent_raster (es : List Event) (n : Nat) (s : State) : (sent es n s).raster = s.raster := rfl
@[simp] theorem sent_latch (es : List Event) (n : Nat) (s : State) : (sent es n s).latch = s.latch := rfl
@[simp] theorem sent_cfg (es : List Event) (n : Nat) (s : State) : (sent es n s).cfg = s.cfg := rfl
@[simp] theorem sent_bus (es : List Event) (n : Nat) (s : State) : (sent es n s).bus = { s.bus with taken := s.bus.taken + n } := rfl
@[simp] theorem sent_inputs (es : List Event) (n : Nat) (s : State) : (sent es n s).inputs = s.inputs := rfl
@[simp] theorem sent_hostRead (es : List Event) (n : Nat) (s : State) : (sent es n s).hostRead = s.hostRead := rfl

end Sys2Proof.Machine
end

