-- ==== Sys2Proof/Laws/Bus.lean ====
section
/-! SUPPORT. What the bus operations can do, said once: `Sends fs s r` is that `r` is the outcome of sending the frames `fs`
one after the other from `s`, for every run of bus draws; `Frame`, `SendCmd`, INIT's ROM walk and SHOW's sequence all do so. -/

namespace Sys2Proof.Machine

variable {s t : State} {r : State × BusReply} {fs gs : List Frame}

/-! ### Lists of events -/

@[simp] theorem linesAfter_append (l : Lines) (es es' : List Event) :
    linesAfter l (es ++ es') = linesAfter (linesAfter l es) es' := List.foldl_append

@[simp] theorem linesAfter_nil (l : Lines) : linesAfter l [] = l := rfl

@[simp] theorem linesAfter_cons (l : Lines) (e : Event) (es : List Event) :
    linesAfter l (e :: es) = linesAfter (lineAfter l e) es := rfl

theorem driveLine_eq (l : Line) (b : Bool) (ls : Lines) : driveLine l b ls = lineAfter ls (.pin l b) := by
  cases l <;> rfl

theorem framesEvents_append (fs gs : List Frame) : framesEvents (fs ++ gs) = framesEvents fs ++ framesEvents gs :=
  List.flatMap_append

@[simp] theorem framesEvents_nil : framesEvents [] = [] := rfl

@[simp] theorem framesEvents_cons (f : Frame) (fs : List Frame) :
    framesEvents (f :: fs) = frameEvents f ++ framesEvents fs := rfl

theorem sent_sent (es es' : List Event) (n n' : Nat) (s : State) :
    sent es' n' (sent es n s) = sent (es ++ es') (n + n') s := by
  simp [sent, List.append_assoc, Nat.add_assoc]

theorem sent_nil (s : State) : sent [] 0 s = s := by simp [sent]

/-- The sequencer's registers written whole; what is sent does not depend on them. -/
def setSeq (q : Seq) (s : State) : State := { s with seq := q }

@[simp] theorem setSeq_cfg (q : Seq) (s : State) : (setSeq q s).cfg = s.cfg := rfl
@[simp] theorem setSeq_fb (q : Seq) (s : State) : (setSeq q s).fb = s.fb := rfl
@[simp] theorem setSeq_bus (q : Seq) (s : State) : (setSeq q s).bus = s.bus := rfl
@[simp] theorem setSeq_self (s : State) : setSeq s.seq s = s := rfl
@[simp] theorem setSeq_setSeq (q q' : Seq) (s : State) : setSeq q (setSeq q' s) = setSeq q s := rfl
@[simp] theorem sent_setSeq (es : List Event) (n : Nat) (q : Seq) (s : State) :
    sent es n (setSeq q s) = setSeq q (sent es n s) := rfl
@[simp] theorem finish_setSeq (code : ResultCode) (q : Seq) (s : State) : finish code (setSeq q s) = finish code s := rfl

/-! ### The draws -/

theorem busClean_zero (s : State) : busClean s 0 := fun _ h => absurd h (by omega)

theorem busClean_add (n m : Nat) (es : List Event) :
    busClean s (n + m) ↔ busClean s n ∧ busClean (sent es n s) m := by
  constructor
  · intro h
    exact ⟨fun k hk => h k (by omega), fun k hk => by
      have := h (n + k) (by omega)
      rw [← Nat.add_assoc] at this
      exact this⟩
  · rintro ⟨h1, h2⟩ k hk
    by_cases hn : k < n
    · exact h1 k hn
    · have := h2 (k - n) (by omega)
      rw [sent_bus] at this
      simp only [show s.bus.taken + n + (k - n) = s.bus.taken + k by omega] at this
      exact this

/-- Either the next `n` frames are all sent, or one of them is the first to fail. -/
theorem busClean_or_faults (s : State) (n : Nat) : busClean s n ∨ ∃ k p, k < n ∧ busFaultsAt s k p := by
  induction n with
  | zero => exact .inl (busClean_zero s)
  | succ n ih =>
    obtain h | ⟨k, p, hk, h⟩ := ih
    · cases hd : s.bus.drawAt (s.bus.taken + n) with
      | ok =>
        refine .inl fun k hk => ?_
        by_cases hn : k < n
        · exact h k hn
        · rw [show k = n by omega, hd]
      | fault p => exact .inr ⟨n, p, by omega, h, hd⟩
    · exact .inr ⟨k, p, by omega, h⟩

/-! ### Sending frames -/

/-- `r` is the outcome of sending the frames `fs` from `s`: all of them where every draw is `ok`, else the frames before
the first that fails and the prefix of that one; the sequencer's registers are left anywhere. -/
def Sends (fs : List Frame) (s : State) (r : State × BusReply) : Prop :=
  (busClean s fs.length → ∃ q, r = (setSeq q (sent (framesEvents fs) fs.length s), .ok)) ∧
  (∀ k p f, fs[k]? = some f → busFaultsAt s k p →
    ∃ q, r = (setSeq q (sent (framesEvents (fs.take k) ++ frameEvents (f.1, f.2.take p)) (k + 1) s), .fault))

theorem sends_nil (s : State) : Sends [] s (s, .ok) :=
  ⟨fun _ => ⟨s.seq, by simp [sent_nil]⟩, fun k p f h => by simp at h⟩

/-- The sequencer's registers do not matter to what is sent. -/
theorem Sends.of_seq {q : Seq} (h : Sends fs (setSeq q s) r) : Sends fs s r := h

theorem transfer_eq (bytes : List Byte) (k : Nat) (s : State) :
    ∃ q, transfer bytes k s = setSeq q (sent (bytes.map Event.byte) 0 s) := by
  induction bytes generalizing k s with
  | nil => exact ⟨s.seq, by simp [transfer, sent_nil]⟩
  | cons b bs ih =>
    obtain ⟨q, hq⟩ := ih (k + 1) (shift b (setByteIdx k s))
    refine ⟨q, ?_⟩
    rw [transfer, hq, shift, waveform_foldl]
    simp [sent, setSeq, setByteIdx, List.append_assoc]

/-- `Frame` sends its one frame (spec/42_panel.md R102). -/
theorem frame_sends (dc : Bool) (bytes : List Byte) (s : State) : Sends [(dc, bytes)] s (frame dc bytes s) := by
  have hd : nextDraw (pin .csN false (pin .dc dc (pin .csN true s))) = s.bus.drawAt (s.bus.taken + 0) := rfl
  constructor
  · intro h
    obtain ⟨q, hq⟩ := transfer_eq bytes 0 (takeDraw (pin .csN false (pin .dc dc (pin .csN true s))))
    refine ⟨q, ?_⟩
    simp only [frame, hd, h 0 (by simp), hq]
    simp [sent, setSeq, pin, takeDraw, driveLine_eq, frameEvents]
  · rintro k p f hf ⟨-, h⟩
    obtain ⟨rfl, rfl⟩ : k = 0 ∧ (dc, bytes) = f := by
      cases k with
      | zero => simpa using hf
      | succ k => simp at hf
    obtain ⟨q, hq⟩ := transfer_eq (bytes.take p) 0 (takeDraw (pin .csN false (pin .dc dc (pin .csN true s))))
    refine ⟨q, ?_⟩
    simp only [frame, hd, h, hq]
    simp [sent, setSeq, pin, takeDraw, driveLine_eq, frameEvents]

/-- Sending `fs` and then, where no bus write failed, `gs`, is sending `fs ++ gs`. -/
theorem Sends.andThen {f : State → State × BusReply} (h : Sends fs s r)
    (hf : ∀ t, t.cfg = s.cfg → t.fb = s.fb → Sends gs t (f t)) : Sends (fs ++ gs) s (andThen r f) := by
  obtain hc | ⟨k, p, hk, hfault⟩ := busClean_or_faults s fs.length
  · obtain ⟨q, rfl⟩ := h.1 hc
    have hg := hf (setSeq q (sent (framesEvents fs) fs.length s)) rfl rfl
    constructor
    · intro hcc
      rw [List.length_append, busClean_add _ _ (framesEvents fs)] at hcc
      obtain ⟨q', hq'⟩ := hg.1 hcc.2
      refine ⟨q', ?_⟩
      simp only [Machine.andThen, hq', List.length_append, framesEvents_append, sent_setSeq, setSeq_setSeq, sent_sent]
    · rintro k p f' hk ⟨hck, hkp⟩
      by_cases hlt : k < fs.length
      · have := hc k hlt
        rw [hkp] at this
        cases this
      · have hk' : gs[k - fs.length]? = some f' := by
          rw [List.getElem?_append_right (by omega)] at hk
          exact hk
        obtain ⟨q', hq'⟩ := hg.2 (k - fs.length) p f' hk' (by
          constructor
          · have : k = fs.length + (k - fs.length) := by omega
            rw [this, busClean_add _ _ (framesEvents fs)] at hck
            exact hck.2
          · show s.bus.drawAt (s.bus.taken + fs.length + (k - fs.length)) = _
            rw [show s.bus.taken + fs.length + (k - fs.length) = s.bus.taken + k by omega]
            exact hkp)
        refine ⟨q', ?_⟩
        simp only [Machine.andThen, hq']
        rw [List.take_append, List.take_of_length_le (by omega : fs.length ≤ k), framesEvents_append, List.append_assoc,
          show k + 1 = fs.length + (k - fs.length + 1) by omega]
        simp only [sent_setSeq, setSeq_setSeq, sent_sent]
  · obtain ⟨f', hf'⟩ : ∃ f', fs[k]? = some f' := ⟨fs[k], List.getElem?_eq_getElem hk⟩
    obtain ⟨q, rfl⟩ := h.2 k p f' hf' hfault
    constructor
    · intro hcc
      have := hcc k (by rw [List.length_append]; omega)
      rw [hfault.2] at this
      cases this
    · rintro k' p' f'' hk' ⟨hck', hkp'⟩
      obtain rfl : k' = k := by
        by_contra hne
        rcases Nat.lt_or_gt_of_ne hne with hlt | hlt
        · have := hfault.1 k' hlt
          rw [hkp'] at this
          cases this
        · have := hck' k hlt
          rw [hfault.2] at this
          cases this
      rw [List.getElem?_append_left hk, hf'] at hk'
      cases hk'
      rw [hfault.2] at hkp'
      cases hkp'
      refine ⟨q, ?_⟩
      simp only [Machine.andThen]
      rw [List.take_append_of_le_length (by omega)]

theorem sendData_sends (data : List Byte) (s : State) : Sends (data.map fun b => (true, [b])) s (sendData data s) := by
  induction data generalizing s with
  | nil => exact sends_nil s
  | cons b bs ih => exact (frame_sends true [b] s).andThen fun t _ _ => ih t

/-- `SendCmd` sends the command frame and one frame per parameter byte (R106). -/
theorem sendCmd_sends (cmd : Byte) (data : List Byte) (s : State) : Sends (cmdFrames cmd data) s (sendCmd cmd data s) :=
  (frame_sends false [cmd] s).andThen fun t _ _ => sendData_sends data t

/-- The ROM walk sends the frames of its entries in order (R111). -/
theorem walkRom_sends (es : List RomEntry) (k : Nat) (s : State) :
    Sends (es.flatMap fun e => cmdFrames e.cmd e.data) s (walkRom es k s) := by
  induction es generalizing k s with
  | nil => exact sends_nil s
  | cons e es ih =>
    exact Sends.of_seq ((sendCmd_sends e.cmd e.data (setRomIdx k s)).andThen fun t _ _ => ih (k + 1) t)

/-- SHOW's sequence sends SHOW's frames (R115, R116). -/
theorem sendScreen_sends (s : State) : Sends (showFrames s.cfg s.fb) s (sendScreen s) := by
  rw [showFrames, List.append_assoc]
  refine Sends.of_seq (q := { s.seq with phase := .caset }) (Sends.andThen (sendCmd_sends _ _ _) fun t ht hfb => ?_)
  change t.cfg = s.cfg at ht
  change t.fb = s.fb at hfb
  refine Sends.of_seq (q := { t.seq with phase := .raset })
    (Sends.andThen (by rw [← ht]; exact sendCmd_sends _ _ _) fun u hu hfb' => ?_)
  change u.cfg = t.cfg at hu
  change u.fb = t.fb at hfb'
  refine Sends.of_seq (q := { u.seq with phase := .ramwr }) (Sends.andThen (fs := [_]) (gs := [_])
    (by rw [← ht, ← hu]; exact frame_sends _ _ _) fun v hv hfb'' => ?_)
  change v.cfg = u.cfg at hv
  change v.fb = u.fb at hfb''
  refine Sends.of_seq (q := { v.seq with phase := .pixels }) ?_
  rw [← ht, ← hfb, ← hu, ← hfb', ← hv, ← hfb'']
  exact frame_sends _ _ _

end Sys2Proof.Machine
end

