-- ==== Sys2Proof/Laws/Decode.lean ====
section
/-! SUPPORT. Small facts about header fields, argument words and packet lengths. -/

namespace Sys2Proof

open Sys2Proof.Machine

theorem inSigned16_iff {v : Int} : inSigned16 v = true ↔ -32768 ≤ v ∧ v ≤ 32767 := by
  unfold inSigned16
  rw [decide_eq_true_iff]

theorem inCount16_iff {n : Nat} : inCount16 n = true ↔ n ≤ 65535 := by
  unfold inCount16
  rw [decide_eq_true_iff]

/-! ### Header words -/

theorem opcodeField_encodeHeader (op : Opcode) (f : Byte) : opcodeField (encodeHeader op f) = opcodeCode op := by
  simp only [opcodeField, encodeHeader]
  ext i hi
  simp only [BitVec.getElem_extractLsb', BitVec.getLsbD_append]
  rw [if_neg (by omega)]
  simp [BitVec.getLsbD_eq_getElem hi]

@[simp] theorem flagsField_encodeHeader (op : Opcode) (f : Byte) : flagsField (encodeHeader op f) = f := by
  simp only [flagsField, encodeHeader]
  ext i hi
  simp only [BitVec.getElem_extractLsb', BitVec.getLsbD_append]
  simp [hi]

@[simp] theorem opcodeOfByte_opcodeCode (op : Opcode) : opcodeOfByte (opcodeCode op) = some op := by cases op <;> rfl

theorem opcodeCode_of_opcodeOfByte {b : Byte} {op : Opcode} (h : opcodeOfByte b = some op) : opcodeCode op = b := by
  unfold opcodeOfByte at h
  split_ifs at h with h1 h2 h3 h4 h5 h6 <;> cases h <;> simp only [*] <;> rfl

@[simp] theorem headerOpcode_encodeHeader (op : Opcode) (f : Byte) : headerOpcode (encodeHeader op f) = some op := by
  rw [headerOpcode, opcodeField_encodeHeader, opcodeOfByte_opcodeCode]

/-- A header is its opcode's code and its flags. -/
theorem encodeHeader_headerOpcode {h : Word} {op : Opcode} (ho : headerOpcode h = some op) :
    encodeHeader op (flagsField h) = h := by
  rw [encodeHeader, opcodeCode_of_opcodeOfByte ho]
  simp only [opcodeField, flagsField]
  ext i hi
  simp only [BitVec.getElem_append, BitVec.getElem_extractLsb']
  split
  · simp [BitVec.getLsbD_eq_getElem hi]
  · rw [show 8 + (i - 8) = i by omega, BitVec.getLsbD_eq_getElem hi]

/-! ### Argument words -/

theorem sext16_encodeSigned {v : Int} (h : inSigned16 v = true) : sext16 (encodeSigned v) = v := by
  rw [inSigned16_iff] at h
  simp only [sext16, encodeSigned, BitVec.toInt_ofInt]
  rw [Int.bmod_eq_of_le] <;> omega

@[simp] theorem encodeSigned_sext16 (w : Word) : encodeSigned (sext16 w) = w := by simp [encodeSigned, sext16]

@[simp] theorem inSigned16_sext16 (w : Word) : inSigned16 (sext16 w) = true := by
  have h1 := BitVec.le_toInt w
  have h2 := BitVec.toInt_lt (x := w)
  rw [inSigned16_iff, sext16]
  norm_num at h1 h2
  omega

/-! ### Packet lengths -/

theorem packetLength_unknown {h : Word} (ho : headerOpcode h = none) (args : List Word) :
    packetLength h args = some 1 := by
  simp only [packetLength, ho]

theorem packetLength_drawText {h : Word} (ho : headerOpcode h = some .drawText) (args : List Word) :
    packetLength h args = (args[5]?).map fun n => 7 + n.toNat := by
  simp only [packetLength, ho, opcodeLength, zext16]

theorem packetLength_fixed {h : Word} {op : Opcode} (ho : headerOpcode h = some op) (hop : op ≠ .drawText)
    (args : List Word) : packetLength h args = some (opcodeLength op 0) := by
  cases op with
  | drawText => exact absurd rfl hop
  | _ => simp only [packetLength, ho]

end Sys2Proof
end

