-- ==== Sys2Proof/Laws/Memory.lean ====
section
/-! SUPPORT. The framebuffer list: read after write, every operation keeps the canonical form, and what each drawing
primitive draws. -/

namespace Sys2Proof.Machine

variable {p : Params} {m m' m'' : List Host.Cell} {a b lo : Nat} {v : Byte} {c : Color}

/-! ### One byte -/

theorem fbRead_fbWrite_ne (h : b ≠ a) : fbRead p b (fbWrite p a v m) = fbRead p b m := by
  induction m with
  | nil => simp only [fbWrite]; split <;> simp [fbRead, h]
  | cons e m ih =>
    obtain ⟨k, u⟩ := e
    simp only [fbWrite]
    split_ifs with h1 h2 h3 h4
    · rfl
    · simp [fbRead, h]
    · subst h3; simp [fbRead, h]
    · subst h3; simp [fbRead, h]
    · simp only [fbRead, ih]

theorem fbWfFrom_mono (h : b ≤ a) (hm : fbWfFrom p a m = true) : fbWfFrom p b m = true := by
  cases m with
  | nil => rfl
  | cons e m =>
    simp only [fbWfFrom, Bool.and_eq_true, decide_eq_true_eq] at hm ⊢
    exact ⟨⟨⟨by omega, hm.1.1.2⟩, hm.1.2⟩, hm.2⟩

theorem fbRead_below (hm : fbWfFrom p lo m = true) (h : a < lo) : fbRead p a m = p.fbResetByte a := by
  induction m generalizing lo with
  | nil => rfl
  | cons e m ih =>
    simp only [fbWfFrom, Bool.and_eq_true, decide_eq_true_eq] at hm
    have hne : a ≠ e.1 := by omega
    simp only [fbRead, if_neg hne]
    exact ih hm.2 (by omega)

theorem fbRead_fbWrite_same_from (hm : fbWfFrom p lo m = true) : fbRead p a (fbWrite p a v m) = v := by
  induction m generalizing lo with
  | nil => simp only [fbWrite]; split_ifs with h <;> simp [fbRead, h]
  | cons e m ih =>
    obtain ⟨k, u⟩ := e
    simp only [fbWrite]
    have hk := hm
    simp only [fbWfFrom, Bool.and_eq_true, decide_eq_true_eq] at hk
    split_ifs with h1 h2 h3 h4
    · rw [fbRead_below (fbWfFrom_mono (b := a + 1) (a := k) (by omega) (by simp [fbWfFrom, hk])) (by omega), h2]
    · simp [fbRead]
    · subst h3; rw [fbRead_below hk.2 (by omega), h4]
    · subst h3; simp [fbRead]
    · simp only [fbRead, if_neg h3]; exact ih hk.2

theorem fbRead_fbWrite_same (hm : fbWf p m = true) : fbRead p a (fbWrite p a v m) = v := fbRead_fbWrite_same_from hm

theorem fbWfFrom_fbWrite (hm : fbWfFrom p lo m = true) (hlo : lo ≤ a) (ha : a < p.fbBytes) :
    fbWfFrom p lo (fbWrite p a v m) = true := by
  induction m generalizing lo with
  | nil => simp only [fbWrite]; split_ifs with h <;> simp [fbWfFrom, h, hlo, ha]
  | cons e m ih =>
    obtain ⟨k, u⟩ := e
    have hk := hm
    simp only [fbWfFrom, Bool.and_eq_true, decide_eq_true_eq, bne_iff_ne] at hk
    simp only [fbWrite]
    split_ifs with h1 h2 h3 h4
    · exact hm
    · simp only [fbWfFrom, Bool.and_eq_true, decide_eq_true_eq, bne_iff_ne]
      exact ⟨⟨⟨hlo, ha⟩, h2⟩, ⟨⟨by omega, hk.1.1.2⟩, hk.1.2⟩, hk.2⟩
    · exact fbWfFrom_mono (by omega) hk.2
    · subst h3
      simp only [fbWfFrom, Bool.and_eq_true, decide_eq_true_eq, bne_iff_ne]
      exact ⟨⟨⟨hlo, ha⟩, h4⟩, hk.2⟩
    · simp only [fbWfFrom, Bool.and_eq_true, decide_eq_true_eq, bne_iff_ne]
      exact ⟨hk.1, ih hk.2 (by omega)⟩

/-- A byte write inside the framebuffer keeps the canonical form. -/
theorem fbWf_fbWrite (hm : fbWf p m = true) (ha : a < p.fbBytes) : fbWf p (fbWrite p a v m) = true :=
  fbWfFrom_fbWrite hm (Nat.zero_le a) ha

/-! ### One pixel -/

theorem fbWf_memWrite (hm : fbWf p m = true) (ha : a + 1 < p.fbBytes) : fbWf p (memWrite p a c m) = true :=
  fbWf_fbWrite (fbWf_fbWrite hm (by omega)) ha

theorem fbRead_memWrite_ne (h0 : b ≠ a) (h1 : b ≠ a + 1) : fbRead p b (memWrite p a c m) = fbRead p b m := by
  rw [memWrite, fbRead_fbWrite_ne h1, fbRead_fbWrite_ne h0]

theorem fbRead_memWrite_first (hm : fbWf p m = true) :
    fbRead p a (memWrite p a c m) = firstByte p.byteOrder c := by
  rw [memWrite, fbRead_fbWrite_ne (by omega), fbRead_fbWrite_same hm]

theorem fbRead_memWrite_second (hm : fbWf p m = true) (ha : a < p.fbBytes) :
    fbRead p (a + 1) (memWrite p a c m) = secondByte p.byteOrder c := by
  rw [memWrite, fbRead_fbWrite_same (fbWf_fbWrite hm ha)]

theorem joinBytes_bytes (o : ByteOrder) (c : Color) : joinBytes o (firstByte o c) (secondByte o c) = c := by
  cases o <;>
  · simp only [joinBytes, firstByte, secondByte, loByte, hiByte]
    ext i hi
    simp only [BitVec.getElem_append, BitVec.getElem_extractLsb']
    split
    · simp only [Nat.zero_add, BitVec.getLsbD_eq_getElem hi]
    · rw [show 8 + (i - 8) = i by omega, BitVec.getLsbD_eq_getElem hi]

theorem inBounds_iff {x y : Int} : inBounds p x y = true ↔ 0 ≤ x ∧ x < p.w ∧ 0 ≤ y ∧ y < p.h := by
  simp [inBounds]

theorem pixOff_bound {i j : Nat} (hi : i < p.w) (hj : j < p.h) : pixOff p i j + 1 < p.fbBytes := by
  have h : (j + 1) * p.w ≤ p.h * p.w := Nat.mul_le_mul_right _ hj
  simp only [pixOff, Params.fbBytes]
  rw [Nat.add_mul, Nat.mul_comm p.h] at h
  omega

theorem pixOff_inj {i j i' j' : Nat} (hi : i < p.w) (hi' : i' < p.w) (h : pixOff p i j = pixOff p i' j') :
    i = i' ∧ j = j' := by
  have h' : j * p.w + i = j' * p.w + i' := by simp only [pixOff] at h; omega
  have hj : j = j' := by
    have := congrArg (· / p.w) h'
    have hw : 0 < p.w := by omega
    simpa [Nat.add_comm _ i, Nat.add_comm _ i', Nat.add_mul_div_right _ _ hw, Nat.div_eq_of_lt hi, Nat.div_eq_of_lt hi'] using this
  subst hj
  exact ⟨by omega, rfl⟩

theorem pixOff_ne_succ {i j i' j' : Nat} : pixOff p i j ≠ pixOff p i' j' + 1 := by simp only [pixOff]; omega

/-! ### Drawing: what is drawn, and the canonical form kept -/

/-- From a canonical framebuffer, `m'` is canonical and is `m` with color `c` on the pixels of `A`. -/
def Draws (p : Params) (A : Int → Int → Prop) (c : Color) (m m' : List Host.Cell) : Prop :=
  fbWf p m = true → fbWf p m' = true ∧ drawn p A c m m'

variable {A B : Int → Int → Prop}

theorem draws_nothing (h : ∀ i j : Nat, i < p.w → j < p.h → ¬ A i j) : Draws p A c m m :=
  fun hm => ⟨hm, fun i j hi hj hA => absurd hA (h i j hi hj), fun _ _ => rfl⟩

theorem Draws.congr (h : Draws p A c m m') (hAB : ∀ i j : Nat, i < p.w → j < p.h → (A i j ↔ B i j)) :
    Draws p B c m m' := by
  intro hm
  obtain ⟨h1, h2, h3⟩ := h hm
  exact ⟨h1, fun i j hi hj hB => h2 i j hi hj ((hAB i j hi hj).2 hB),
    fun a ha => h3 a fun i j hi hj hA => ha i j hi hj ((hAB i j hi hj).1 hA)⟩

theorem Draws.trans (h : Draws p A c m m') (h' : Draws p B c m' m'') :
    Draws p (fun i j => A i j ∨ B i j) c m m'' := by
  intro hm
  obtain ⟨hm', h2, h3⟩ := h hm
  obtain ⟨hm'', h2', h3'⟩ := h' hm'
  refine ⟨hm'', fun i j hi hj hAB => ?_, fun a ha => ?_⟩
  · by_cases hB : B i j
    · exact h2' i j hi hj hB
    · have hA := hAB.resolve_right hB
      have hne : ∀ i' j' : Nat, i' < p.w → j' < p.h → B i' j' → pixOff p i j ≠ pixOff p i' j' := by
        intro i' j' hi' _ hB' he
        obtain ⟨rfl, rfl⟩ := pixOff_inj hi hi' he
        exact hB hB'
      rw [h3' _ fun i' j' hi' hj' hB' => ⟨hne i' j' hi' hj' hB', pixOff_ne_succ⟩,
        h3' _ fun i' j' hi' hj' hB' => ⟨fun he => pixOff_ne_succ he.symm, fun he => hne i' j' hi' hj' hB' (by omega)⟩]
      exact h2 i j hi hj hA
  · rw [h3' a fun i j hi hj hB => ha i j hi hj (.inr hB), h3 a fun i j hi hj hA => ha i j hi hj (.inl hA)]

theorem plotPixel_draws (x y : Int) : Draws p (fun i j => i = x ∧ j = y) c m (plotPixel p x y c m) := by
  by_cases hb : inBounds p x y = true
  · rw [plotPixel, if_pos hb]
    rw [inBounds_iff] at hb
    obtain ⟨i, rfl⟩ := Int.eq_ofNat_of_zero_le hb.1
    obtain ⟨j, rfl⟩ := Int.eq_ofNat_of_zero_le hb.2.2.1
    simp only [Int.toNat_natCast]
    have hi : i < p.w := by omega
    have hj : j < p.h := by omega
    have ho := pixOff_bound hi hj
    intro hm
    refine ⟨fbWf_memWrite hm ho, fun i' j' _ _ h => ?_, fun a ha => ?_⟩
    · obtain ⟨h1, h2⟩ := h
      obtain rfl : i' = i := by omega
      obtain rfl : j' = j := by omega
      exact ⟨fbRead_memWrite_first hm, fbRead_memWrite_second hm (by omega)⟩
    · obtain ⟨h1, h2⟩ := ha i j hi hj ⟨rfl, rfl⟩
      exact fbRead_memWrite_ne h1 h2
  · rw [plotPixel, if_neg hb]
    refine draws_nothing fun i j hi hj h => hb ?_
    rw [inBounds_iff]
    omega

theorem forRange_draws {f : Nat → List Host.Cell → List Host.Cell} {F : Nat → Int → Int → Prop} {lo hi : Nat}
    (h : ∀ k m, lo ≤ k → k < hi → Draws p (F k) c m (f k m)) :
    Draws p (fun i j => ∃ k, lo ≤ k ∧ k < hi ∧ F k i j) c m (forRange lo hi f m) := by
  simp only [forRange]
  induction hn : hi - lo generalizing lo m with
  | zero => exact draws_nothing fun i j _ _ => by rintro ⟨k, h1, h2, -⟩; omega
  | succ n ih =>
    simp only [List.range'_succ, List.foldl_cons]
    refine ((h lo m (by omega) (by omega)).trans
      (ih (lo := lo + 1) (fun k m h1 h2 => h k m (by omega) h2) (by omega))).congr fun i j _ _ => ?_
    constructor
    · rintro (h | ⟨k, h1, h2, h3⟩)
      · exact ⟨lo, by omega, by omega, h⟩
      · exact ⟨k, by omega, h2, h3⟩
    · rintro ⟨k, h1, h2, h3⟩
      by_cases hk : k = lo
      · subst hk; exact .inl h3
      · exact .inr ⟨k, by omega, h2, h3⟩

theorem fillRectClip_draws (x y w h : Int) : Draws p (inRect x y w h) c m (fillRectClip p x y w h c m) := by
  refine (forRange_draws fun j m _ _ => forRange_draws fun i m _ _ => plotPixel_draws (c := c) (m := m) (i : Int) (j : Int)).congr
    fun i j hi hj => ?_
  simp only [clipLo, clipHi, inRect]
  constructor
  · rintro ⟨k, h1, h2, k', h3, h4, h5, h6⟩
    omega
  · rintro ⟨h1, h2, h3, h4⟩
    exact ⟨j, by omega, by omega, i, by omega, by omega, rfl, rfl⟩

theorem fillAll_draws : Draws p (fun _ _ => True) c m (fillAll p c m) := by
  have hk : ∀ k m, k < p.w * p.h →
      Draws p (fun i j => (j * p.w + i : Int) = k) c m (memWrite p (2 * k) c m) := by
    intro k m hk hm
    have ho : 2 * k + 1 < p.fbBytes := by simp only [Params.fbBytes]; omega
    have hoff : ∀ i j : Nat, ((j * p.w + i : Int) = k ↔ pixOff p i j = 2 * k) := by
      intro i j
      simp only [pixOff]
      constructor
      · intro h
        have : j * p.w + i = k := by exact_mod_cast h
        omega
      · intro h
        have : j * p.w + i = k := by omega
        exact_mod_cast this
    refine ⟨fbWf_memWrite hm ho, fun i j hi hj h => ?_, fun a ha => ?_⟩
    · rw [(hoff i j).1 h]
      exact ⟨fbRead_memWrite_first hm, fbRead_memWrite_second hm (by omega)⟩
    · have hw : 0 < p.w := Nat.pos_of_ne_zero fun h0 => by simp [h0] at hk
      have hj : k / p.w < p.h := Nat.div_lt_of_lt_mul hk
      have he : k / p.w * p.w + k % p.w = k := by rw [Nat.mul_comm]; exact Nat.div_add_mod k p.w
      have hp : pixOff p (k % p.w) (k / p.w) = 2 * k := by simp only [pixOff]; omega
      obtain ⟨h1, h2⟩ := ha (k % p.w) (k / p.w) (Nat.mod_lt _ hw) hj ((hoff _ _).2 hp)
      rw [hp] at h1 h2
      exact fbRead_memWrite_ne h1 h2
  refine (forRange_draws fun k m _ h => hk k m h).congr fun i j hi hj => ?_
  simp only [iff_true]
  refine ⟨j * p.w + i, Nat.zero_le _, ?_, by push_cast; rfl⟩
  have h := pixOff_bound hi hj
  simp only [pixOff, Params.fbBytes] at h
  omega

/-! ### Loops over an interval -/

theorem forRange_congr {f g : Nat → List Host.Cell → List Host.Cell} {lo hi : Nat}
    (h : ∀ k, lo ≤ k → k < hi → f k = g k) (m : List Host.Cell) : forRange lo hi f m = forRange lo hi g m := by
  unfold forRange
  generalize hn : hi - lo = n
  induction n generalizing lo m with
  | zero => rfl
  | succ n ih =>
    simp only [List.range'_succ, List.foldl_cons]
    rw [h lo (by omega) (by omega)]
    exact ih (fun k h1 h2 => h k (by omega) h2) _ (by omega)

theorem forRange_id {f : Nat → List Host.Cell → List Host.Cell} {lo hi : Nat}
    (h : ∀ k, lo ≤ k → k < hi → f k = id) (m : List Host.Cell) : forRange lo hi f m = m := by
  rw [forRange_congr (g := fun _ => id) h]
  unfold forRange
  generalize List.range' lo (hi - lo) = l
  induction l with
  | nil => rfl
  | cons a l ih => exact ih

theorem forRange_append {f : Nat → List Host.Cell → List Host.Cell} {lo mid hi : Nat} (h1 : lo ≤ mid) (h2 : mid ≤ hi)
    (m : List Host.Cell) : forRange lo hi f m = forRange mid hi f (forRange lo mid f m) := by
  have e := List.range'_append (s := lo) (m := mid - lo) (n := hi - mid) (step := 1)
  rw [show lo + 1 * (mid - lo) = mid by omega, show mid - lo + (hi - mid) = hi - lo by omega] at e
  simp only [forRange]
  rw [← List.foldl_append, e]

theorem forRange_shift {f g : Nat → List Host.Cell → List Host.Cell} {lo hi d : Nat} (h : ∀ k, f (k + d) = g k)
    (m : List Host.Cell) : forRange (lo + d) (hi + d) f m = forRange lo hi g m := by
  unfold forRange
  rw [show hi + d - (lo + d) = hi - lo by omega]
  generalize hi - lo = n
  induction n generalizing lo m with
  | zero => rfl
  | succ n ih =>
    simp only [List.range'_succ, List.foldl_cons, h]
    rw [show lo + d + 1 = lo + 1 + d by omega]
    exact ih _

theorem forRange_one (f : Nat → List Host.Cell → List Host.Cell) (n : Nat) (m : List Host.Cell) :
    forRange n (n + 1) f m = f n m := by
  simp [forRange]

end Sys2Proof.Machine
end

