-- ==== Sys2Proof/Laws/PerInstr.lean ====
section
/-! SUPPORT. A fact about every operation as syntax, one lemma per constructor: its encoded packet has the length its own
header and arguments give (spec/30_encoding.md R59). -/

namespace Sys2Proof.Laws.PacketWords

/-- The encoded packet of a well-formed operation has as many words as `PacketLength` says. -/
def Statement (i : Instr) : Prop :=
  i.wellFormed = true →
    packetLength (encodeHeader i.opcode (encodeFlags i)) (encodeArgs i) = some ((encodeArgs i).length + 1)

theorem init : Statement .init := fun _ => packetLength_fixed (headerOpcode_encodeHeader _ _) (by decide) _

theorem setPixel (x y : Int) (color : Color) : Statement (.setPixel x y color) :=
  fun _ => packetLength_fixed (headerOpcode_encodeHeader _ _) (fun h => by cases h) _

theorem fillRect (x y w h : Int) (color : Color) : Statement (.fillRect x y w h color) :=
  fun _ => packetLength_fixed (headerOpcode_encodeHeader _ _) (fun h => by cases h) _

theorem fill (color : Color) : Statement (.fill color) :=
  fun _ => packetLength_fixed (headerOpcode_encodeHeader _ _) (fun h => by cases h) _

theorem drawText (mirror : Bool) (x y : Int) (color : Color) (sx sy : Int) (chars : List Word) :
    Statement (.drawText mirror x y color sx sy chars) := by
  intro h
  simp only [Instr.wellFormed, Bool.and_eq_true, inCount16_iff] at h
  have hn : chars.length % 65536 = chars.length := by omega
  rw [Instr.opcode, packetLength_drawText (headerOpcode_encodeHeader _ _)]
  simp [encodeArgs, hn]
  omega

theorem showPanel : Statement .showPanel := fun _ => packetLength_fixed (headerOpcode_encodeHeader _ _) (by decide) _

end Sys2Proof.Laws.PacketWords
end

