-- ==== Sys2Proof/Laws/Rasterizer.lean ====
section
/-! SUPPORT. What the rasterizer's operations can do, said once: `Rastered A c s s'` is that from `s` to `s'` only the
framebuffer and the working registers changed, color `c` being drawn on the pixels of `A`. -/

namespace Sys2Proof.Machine

variable {s s' s'' : State} {A B : Int → Int → Prop} {c : Color}

/-- From `s` to `s'` only the framebuffer and the working registers of the rasterizer may have changed, and the framebuffer
by drawing `c` on the pixels of `A`. -/
def Rastered (A : Int → Int → Prop) (c : Color) (s s' : State) : Prop :=
  (∃ m r, s' = { s with fb := m, raster := r }) ∧ Draws s.cfg A c s.fb s'.fb

theorem rastered_registers (r : Raster) (h : ∀ i j : Nat, i < s.cfg.w → j < s.cfg.h → ¬ A i j) :
    Rastered A c s { s with raster := r } := ⟨⟨s.fb, r, rfl⟩, draws_nothing h⟩

theorem Rastered.cfg (h : Rastered A c s s') : s'.cfg = s.cfg := by
  obtain ⟨⟨m, r, rfl⟩, -⟩ := h
  rfl

theorem Rastered.congr (h : Rastered A c s s') (hAB : ∀ i j : Nat, i < s.cfg.w → j < s.cfg.h → (A i j ↔ B i j)) :
    Rastered B c s s' := ⟨h.1, h.2.congr hAB⟩

theorem Rastered.trans (h : Rastered A c s s') (h' : Rastered B c s' s'') :
    Rastered (fun i j => A i j ∨ B i j) c s s'' := by
  obtain ⟨⟨m, r, rfl⟩, h2⟩ := h
  obtain ⟨⟨m', r', rfl⟩, h2'⟩ := h'
  exact ⟨⟨m', r', rfl⟩, h2.trans h2'⟩

/-- A loop of steps each of which draws on pixels of its own and keeps what `P` says. -/
theorem foldl_rastered {f : State → Nat → State} {F : Nat → Int → Int → Prop} {P : State → Prop} {l : List Nat}
    (hP : P s) (h : ∀ s k, P s → k ∈ l → Rastered (F k) c s (f s k) ∧ P (f s k)) :
    Rastered (fun i j => ∃ k ∈ l, F k i j) c s (l.foldl f s) ∧ P (l.foldl f s) := by
  induction l generalizing s with
  | nil => exact ⟨rastered_registers s.raster (by simp), hP⟩
  | cons k l ih =>
    obtain ⟨h1, h2⟩ := h s k hP List.mem_cons_self
    obtain ⟨h3, h4⟩ := ih h2 (fun s k' hs hk => h s k' hs (List.mem_cons_of_mem _ hk))
    exact ⟨(h1.trans h3).congr fun i j _ _ => by simp, h4⟩

/-- The block of a set bit covers its rectangle, at scale (1,1) one pixel (spec/40_rasterizer.md R80). -/
theorem plotBlock_draws (p : Params) (t : TextStyle) (px py : Int) (m : List Host.Cell) :
    Draws p (inRect px py t.sx t.sy) t.color m (plotBlock p t px py m) := by
  unfold plotBlock
  split_ifs with h
  · refine (plotPixel_draws px py).congr fun i j _ _ => ?_
    rw [inRect, h.1, h.2]
    omega
  · exact fillRectClip_draws px py t.sx t.sy

/-- The pixels of one `(ROW, COL)` of a glyph whose cell starts at `pen`. -/
def inCell (p : Params) (t : TextStyle) (g : GlyphRows) (pen : Int) (row col : Nat) (i j : Int) : Prop :=
  glyphBit p.bitOrder (glyphRow g row) col = true ∧
    inRect (pen + (destColumn t.mirror col : Int) * t.sx) (t.y + (row : Int) * t.sy) t.sx t.sy i j

/-- `drawCell` with the registers it has just written read back. -/
theorem drawCell_eq (t : TextStyle) (g : GlyphRows) (row col : Nat) (s : State) :
    drawCell t g row col s =
      if glyphBit s.cfg.bitOrder (glyphRow g row) col then
        setFb (plotBlock s.cfg t (s.raster.penX + (destColumn t.mirror col : Int) * t.sx) (t.y + (row : Int) * t.sy) s.fb)
          (setCell row col s)
      else setCell row col s := rfl

/-- One `(ROW, COL)` (R82): the pen stays. -/
theorem drawCell_rastered (t : TextStyle) (g : GlyphRows) (row col : Nat) (s : State) :
    Rastered (inCell s.cfg t g s.raster.penX row col) t.color s (drawCell t g row col s) ∧
      (drawCell t g row col s).raster.penX = s.raster.penX := by
  rw [drawCell_eq]
  by_cases h : glyphBit s.cfg.bitOrder (glyphRow g row) col = true
  · rw [if_pos h]
    refine ⟨⟨⟨_, _, rfl⟩, ?_⟩, rfl⟩
    exact (plotBlock_draws s.cfg t _ _ s.fb).congr fun i j _ _ => by simp [inCell, h]
  · rw [if_neg h]
    exact ⟨rastered_registers _ fun i j _ _ hc => h hc.1, rfl⟩

/-- The loops over `ROW` and `COL` (R82): every cell of the glyph is drawn, and the pen stays. -/
theorem drawGlyph_rastered (t : TextStyle) (g : GlyphRows) (s : State) :
    Rastered (fun i j => ∃ row col, row < 8 ∧ col < 8 ∧ inCell s.cfg t g s.raster.penX row col i j) t.color s
        (drawGlyph t g s) ∧
      (drawGlyph t g s).raster.penX = s.raster.penX := by
  have hrows : ∀ rows cols : List Nat,
      Rastered (fun i j => ∃ row ∈ rows, ∃ col ∈ cols, inCell s.cfg t g s.raster.penX row col i j) t.color s
          (rows.foldl (fun s row => cols.foldl (fun s col => drawCell t g row col s) s) s) ∧
        (rows.foldl (fun s row => cols.foldl (fun s col => drawCell t g row col s) s) s).cfg = s.cfg ∧
        (rows.foldl (fun s row => cols.foldl (fun s col => drawCell t g row col s) s) s).raster.penX = s.raster.penX :=
    fun rows cols => foldl_rastered (P := fun u => u.cfg = s.cfg ∧ u.raster.penX = s.raster.penX) ⟨rfl, rfl⟩
      fun u row hu _ => foldl_rastered (P := fun v => v.cfg = s.cfg ∧ v.raster.penX = s.raster.penX) hu
        fun v col hv _ => by
          obtain ⟨h3, h4⟩ := drawCell_rastered t g row col v
          rw [hv.1, hv.2] at h3
          exact ⟨h3, h3.cfg.trans hv.1, h4.trans hv.2⟩
  obtain ⟨h1, -, h3⟩ := hrows (List.range 8) (List.range 8)
  rw [drawGlyph]
  refine ⟨h1.congr fun i j _ _ => ?_, h3⟩
  constructor
  · rintro ⟨row, hr, col, hc, h⟩
    exact ⟨row, col, List.mem_range.1 hr, List.mem_range.1 hc, h⟩
  · rintro ⟨row, col, hr, hc, h⟩
    exact ⟨row, List.mem_range.2 hr, col, List.mem_range.2 hc, h⟩

end Sys2Proof.Machine
end

