-- ==== Sys2Proof/Laws/Step.lean ====
section
/-! SUPPORT. Everything a step can do, said once, and everything a drawing operation can do. -/

namespace Sys2Proof.Machine

variable {s t : State}

/-- The canonical form of the framebuffer is kept by every drawing operation, and nothing else than the framebuffer is
written but what `finish(OK)` writes. -/
theorem exec_drawsOnly {i : Instr} (h : drawsOnly i = true) (s : State) :
    ∃ m, exec i s = .next (finish .ok (setFb m s)) ∧ (fbWf s.cfg s.fb = true → fbWf s.cfg m = true) := by
  cases i with
  | init => cases h
  | showPanel => cases h
  | setPixel x y c => exact ⟨_, rfl, fun hm => (plotPixel_draws x y hm).1⟩
  | fillRect x y w ht c => exact ⟨_, rfl, fun hm => (fillRectClip_draws x y w ht hm).1⟩
  | fill c => exact ⟨_, rfl, fun hm => (fillAll_draws hm).1⟩
  | drawText mirror x y c sx sy chars =>
    have hr : ∀ (t : TextStyle) (chs : List Word) (k : Nat) (s : State), ∃ A, Rastered A t.color s (drawChars t chs k s) := by
      intro t chs
      induction chs with
      | nil => exact fun _ s => ⟨fun _ _ => False, rastered_registers s.raster (by simp)⟩
      | cons ch chs ih =>
        intro k s
        obtain ⟨A, hA⟩ := ih (k + 1) (drawChar t ch (setCharIdx k s))
        have h1 : ∃ B, Rastered B t.color s (drawChar t ch (setCharIdx k s)) := by
          have h0 := rastered_registers (s := s) (A := fun _ _ => False) (c := t.color)
            { s.raster with charIdx := k } (by simp)
          unfold drawChar
          split
          · exact ⟨_, h0.trans (rastered_registers (A := fun _ _ => False) _ (by simp))⟩
          · exact ⟨_, (h0.trans (drawGlyph_rastered t _ _).1).trans (rastered_registers (A := fun _ _ => False) _ (by simp))⟩
        obtain ⟨B, hB⟩ := h1
        exact ⟨_, hB.trans hA⟩
    obtain ⟨A, ⟨m, r, he⟩, hd⟩ := hr { mirror := mirror, y := y, color := c, sx := sx, sy := sy } chars 0 (setPen x s)
    refine ⟨m, ?_, fun hm => ?_⟩
    · simp only [exec, execDrawText, he]
      rfl
    · rw [he] at hd
      exact (hd hm).1

/-- Everything a step can do when it answers a next state: a block reset; an INIT's acceptance ahead of a host access; a host
access; the operation of the latch; an illegal packet; or waiting. -/
theorem step_cases (h : step s = .next t) :
    configOk s.cfg = true ∧
    ((∃ rest, nextInput s = some (.reset, rest) ∧ t = blockReset { s with inputs := rest }) ∨
      (∃ a rest, nextInput s = some (.access a .underWay, rest) ∧ initWaits s = true ∧ t = acceptInit s) ∨
      (∃ a m rest, nextInput s = some (.access a m, rest) ∧
        ((∃ v, t = { s with inputs := rest, hostRead := v }) ∨
          (s.busy = false ∧ ∃ w, t = receive w { s with inputs := rest }))) ∨
      (s.busy = true ∧ noInput s ∧ ∃ i, decode s.latch.hdr s.latch.args = .ok i ∧ exec i s = .next t) ∨
      (s.busy = true ∧ noInput s ∧ (∀ i, decode s.latch.hdr s.latch.args ≠ .ok i) ∧ t = finish .illegal s) ∨
      (s.busy = false ∧ noInput s ∧ t = s)) := by
  unfold step at h
  split_ifs at h with hc
  refine ⟨hc, ?_⟩
  unfold advance at h
  split at h
  · rename_i i rest hi
    split_ifs at h with hf
    · cases h
      cases i with
      | reset => simp [acceptedFirst] at hf
      | access a m =>
        simp only [acceptedFirst, Bool.and_eq_true, beq_iff_eq] at hf
        obtain ⟨⟨rfl, -⟩, hw⟩ := hf
        exact .inr (.inl ⟨a, rest, hi, hw, rfl⟩)
    cases i with
    | reset =>
      cases h
      exact .inl ⟨rest, hi, rfl⟩
    | access a m =>
      refine .inr (.inr (.inl ⟨a, m, rest, hi, ?_⟩))
      cases a with
      | read offset width =>
        simp only [applyInput, serve] at h
        split_ifs at h
        cases h
        exact .inl ⟨_, rfl⟩
      | write offset width v =>
        simp only [applyInput, serve, writeRegister] at h
        split_ifs at h with h1 h2
        · cases h
          refine .inr ⟨?_, v, rfl⟩
          cases hb : s.busy with
          | false => rfl
          | true =>
            unfold nextInput at hi
            split at hi
            · cases hi
            · simp only [hb] at hi
              split_ifs at hi with hl
              cases hi
              subst h2
              simp [landsWhileBusy, isCmdWrite, h1] at hl
        · cases h
          exact .inl ⟨s.hostRead, rfl⟩
  · rename_i hn
    split_ifs at h with hb
    · unfold perform at h
      split at h
      · rename_i i hd
        exact .inr (.inr (.inr (.inl ⟨hb, hn, i, hd, h⟩)))
      · rename_i hd
        cases h
        exact .inr (.inr (.inr (.inr (.inl ⟨hb, hn, (by rw [hd]; simp), rfl⟩))))
      · rename_i hd
        cases h
        exact .inr (.inr (.inr (.inr (.inl ⟨hb, hn, (by rw [hd]; simp), rfl⟩))))
      · cases h
    · cases h
      exact .inr (.inr (.inr (.inr (.inr ⟨by simpa using hb, hn, rfl⟩))))

end Sys2Proof.Machine
end

