-- ==== Sys2Proof/Laws/Trace.lean ====
section
/-! SUPPORT. Traces of whole frames: the framing rule, the projections of spec/42_panel.md R104 and the line levels, over
lists put end to end. -/

namespace Sys2Proof.Machine

/-! ### The framing rule -/

theorem framing_append (sel : Bool) (es es' : List Event) :
    framing sel (es ++ es') = (framing sel es).bind fun sel' => framing sel' es' := by
  induction es generalizing sel with
  | nil => rfl
  | cons e es ih =>
    match e with
    | .pin .csN b => exact ih _
    | .pin .dc b => cases sel <;> simp [framing, ih]
    | .pin .rstN b => exact ih _
    | .byte v => cases sel <;> simp [framing, ih]

theorem framing_bytes (vs : List Byte) : framing true (vs.map Event.byte) = some true := by
  induction vs with
  | nil => rfl
  | cons v vs ih => exact ih

/-- A frame keeps the framing rule and ends deselected (R102). -/
theorem framing_frameEvents (f : Frame) : framing false (frameEvents f) = some false := by
  simp [frameEvents, framing, framing_append, framing_bytes]

theorem framing_framesEvents (fs : List Frame) : framing false (framesEvents fs) = some false := by
  induction fs with
  | nil => rfl
  | cons f fs ih => simp [framing_append, framing_frameEvents, ih]

/-! ### The projections -/

/-- The level of `DC` after a list of events. -/
def dcAfter (dc : Bool) : List Event → Bool
  | [] => dc
  | .pin .dc b :: es => dcAfter b es
  | .pin .csN _ :: es => dcAfter dc es
  | .pin .rstN _ :: es => dcAfter dc es
  | .byte _ :: es => dcAfter dc es

theorem traceBytesFrom_append (dc : Bool) (es es' : List Event) :
    traceBytesFrom dc (es ++ es') = traceBytesFrom dc es ++ traceBytesFrom (dcAfter dc es) es' := by
  induction es generalizing dc with
  | nil => rfl
  | cons e es ih =>
    match e with
    | .pin .csN b => exact ih _
    | .pin .dc b => exact ih _
    | .pin .rstN b => exact ih _
    | .byte v => simp [traceBytesFrom, dcAfter, ih]

theorem traceBytesFrom_bytes (dc : Bool) (vs : List Byte) :
    traceBytesFrom dc (vs.map Event.byte) = vs.map fun v => (dc, v) := by
  induction vs with
  | nil => rfl
  | cons v vs ih => simp [traceBytesFrom, ih]

theorem dcAfter_bytes (dc : Bool) (vs : List Byte) : dcAfter dc (vs.map Event.byte) = dc := by
  induction vs with
  | nil => rfl
  | cons v vs ih => exact ih

/-- The bytes of a frame's events (R102, R104). -/
theorem traceBytesFrom_frameEvents (dc : Bool) (f : Frame) :
    traceBytesFrom dc (frameEvents f) = f.2.map fun v => (f.1, v) := by
  simp [frameEvents, traceBytesFrom, traceBytesFrom_append, traceBytesFrom_bytes]

theorem traceBytesFrom_framesEvents (dc : Bool) (fs : List Frame) :
    traceBytesFrom dc (framesEvents fs) = fs.flatMap fun f => f.2.map fun v => (f.1, v) := by
  induction fs generalizing dc with
  | nil => rfl
  | cons f fs ih => simp [traceBytesFrom_append, traceBytesFrom_frameEvents, ih]

theorem traceFramesFrom_bytes (dc : Bool) (cur : List Byte) (vs : List Byte) (es : List Event) :
    traceFramesFrom dc (some cur) (vs.map Event.byte ++ es) = traceFramesFrom dc (some (cur ++ vs)) es := by
  induction vs generalizing cur with
  | nil => simp
  | cons v vs ih => simp [traceFramesFrom, ih, List.append_assoc]

/-- A frame's events are one frame (R102, R104). -/
theorem traceFramesFrom_frameEvents (dc : Bool) (f : Frame) (es : List Event) :
    traceFramesFrom dc none (frameEvents f ++ es) = f :: traceFramesFrom f.1 none es := by
  simp [frameEvents, traceFramesFrom, List.append_assoc, traceFramesFrom_bytes]

theorem traceFramesFrom_framesEvents (dc : Bool) (fs : List Frame) :
    traceFramesFrom dc none (framesEvents fs) = fs := by
  induction fs generalizing dc with
  | nil => rfl
  | cons f fs ih => simp [traceFramesFrom_frameEvents, ih]

/-- After a trace that ends deselected, whatever follows adds its own frames (R104). -/
theorem traceFramesFrom_append (dc sel : Bool) (cur : Option (List Byte)) (es es' : List Event)
    (hcur : cur.isSome = sel) (h : framing sel es = some false) :
    traceFramesFrom dc cur (es ++ es') = traceFramesFrom dc cur es ++ traceFramesFrom (dcAfter dc es) none es' := by
  induction es generalizing dc sel cur with
  | nil =>
    simp only [framing, Option.some.injEq] at h
    subst h
    have : cur = none := by simpa using hcur
    subst this
    rfl
  | cons e es ih =>
    match e with
    | .pin .csN true =>
      cases cur with
      | none => exact ih _ _ _ rfl h
      | some vs => simp [traceFramesFrom, dcAfter, ih dc false none rfl h]
    | .pin .csN false => exact ih dc true _ rfl h
    | .pin .dc b => cases sel <;> simp [framing] at h; exact ih b false cur hcur h
    | .pin .rstN b => exact ih dc sel cur hcur h
    | .byte v => cases sel <;> simp [framing] at h; exact ih dc true _ (by simpa using hcur) h

/-! ### Counts of events -/

/-- A count over bytes shifted out, for a test that does not look at their values. -/
theorem countP_map_byte (p : Event → Bool) (b : Bool) (h : ∀ v, p (.byte v) = b) (vs : List Byte) :
    (vs.map Event.byte).countP p = if b then vs.length else 0 := by
  induction vs with
  | nil => cases b <;> rfl
  | cons v vs ih => cases b <;> simp_all

/-- No frame drives `RST_N` (R101, R102). -/
theorem countP_rstN_framesEvents (fs : List Frame) : (framesEvents fs).countP (isPinOf .rstN) = 0 := by
  induction fs with
  | nil => rfl
  | cons f fs ih =>
    simp [frameEvents, ih, countP_map_byte (isPinOf .rstN) false (fun _ => rfl), List.countP_append, isPinOf]

/-- A frame has 4 `Pin` events (R102). -/
theorem countP_isPin_framesEvents (fs : List Frame) : (framesEvents fs).countP isPin = 4 * fs.length := by
  induction fs with
  | nil => rfl
  | cons f fs ih =>
    simp [frameEvents, ih, countP_map_byte isPin false (fun _ => rfl), List.countP_append, List.countP_cons, isPin]
    omega

/-- A frame has as many `Byte` events as bytes (R102). -/
theorem countP_isByte_framesEvents (fs : List Frame) :
    (framesEvents fs).countP isByte = (fs.map fun f => f.2.length).sum := by
  induction fs with
  | nil => rfl
  | cons f fs ih =>
    simp [frameEvents, ih, countP_map_byte isByte true (fun _ => rfl), List.countP_append, isByte]

/-! ### The line levels -/

theorem linesAfter_bytes (l : Lines) (vs : List Byte) :
    (linesAfter l (vs.map Event.byte)).csN = l.csN ∧ (linesAfter l (vs.map Event.byte)).rstN = l.rstN ∧
      (l.sclk = false → (linesAfter l (vs.map Event.byte)).sclk = false) := by
  induction vs generalizing l with
  | nil => exact ⟨rfl, rfl, id⟩
  | cons v vs ih =>
    obtain ⟨h1, h2, h3⟩ := ih (lineAfter l (.byte v))
    exact ⟨h1, h2, fun _ => h3 rfl⟩

/-- A frame leaves the panel deselected, `RST_N` as it was and the clock idle (R102, R103). -/
theorem linesAfter_frameEvents (l : Lines) (f : Frame) :
    (linesAfter l (frameEvents f)).csN = true ∧ (linesAfter l (frameEvents f)).rstN = l.rstN ∧
      (l.sclk = false → (linesAfter l (frameEvents f)).sclk = false) := by
  obtain ⟨-, h2, h3⟩ := linesAfter_bytes (linesAfter l [.pin .csN true, .pin .dc f.1, .pin .csN false]) f.2
  simp only [frameEvents, linesAfter_append]
  exact ⟨rfl, h2, h3⟩

theorem linesAfter_framesEvents (l : Lines) (fs : List Frame) (hc : l.csN = true) (hs : l.sclk = false) :
    (linesAfter l (framesEvents fs)).csN = true ∧ (linesAfter l (framesEvents fs)).rstN = l.rstN ∧
      (linesAfter l (framesEvents fs)).sclk = false := by
  induction fs generalizing l with
  | nil => exact ⟨hc, rfl, hs⟩
  | cons f fs ih =>
    obtain ⟨h1, h2, h3⟩ := linesAfter_frameEvents l f
    obtain ⟨h4, h5, h6⟩ := ih _ h1 (h3 hs)
    simp only [framesEvents_cons, linesAfter_append]
    exact ⟨h4, h5.trans h2, h6⟩

end Sys2Proof.Machine
end

