-- ==== Sys2Proof/Tests/Slice0.lean ====
section
/-! SUPPORT. Small tests, their expected results taken from the spec (vectors V<n> and programs P<n> of
spec/95_test_vectors.md, header patterns of spec/30_encoding.md R61), and a witness for the hypotheses of each obligation. -/

set_option Elab.async false

open Sys2Proof Sys2Proof.Machine

/-! ### Well-formedness: an ill-formed term for each check -/

theorem test_wf_setPixel_x : Instr.wellFormed (.setPixel 32768 0 0#16) = false := by decide
theorem test_wf_setPixel_y : Instr.wellFormed (.setPixel 0 (-32769) 0#16) = false := by decide
theorem test_wf_fillRect_x : Instr.wellFormed (.fillRect (-32769) 0 0 0 0#16) = false := by decide
theorem test_wf_fillRect_y : Instr.wellFormed (.fillRect 0 32768 0 0 0#16) = false := by decide
theorem test_wf_fillRect_w : Instr.wellFormed (.fillRect 0 0 32768 0 0#16) = false := by decide
theorem test_wf_fillRect_h : Instr.wellFormed (.fillRect 0 0 0 (-32769) 0#16) = false := by decide
theorem test_wf_drawText_x : Instr.wellFormed (.drawText false 32768 0 0#16 1 1 []) = false := by decide
theorem test_wf_drawText_y : Instr.wellFormed (.drawText false 0 32768 0#16 1 1 []) = false := by decide
theorem test_wf_drawText_sx : Instr.wellFormed (.drawText false 0 0 0#16 32768 1 []) = false := by decide
theorem test_wf_drawText_sy : Instr.wellFormed (.drawText false 0 0 0#16 1 (-32769) []) = false := by decide
theorem test_wf_drawText_count : Instr.wellFormed (.drawText false 0 0 0#16 1 1 (List.replicate 65536 0#16)) = false := by
  simp only [Instr.wellFormed, List.length_replicate]
  decide

/-! ### Decoding: header words written out from R61, arguments from R57 and R60 -/

theorem test_decode_init : decode 0b0000000100000000#16 [] = .ok .init := by decide
theorem test_decode_setPixel :
    decode 0b0001000000000000#16 [0b1000000000000000#16, 0b0111111111111111#16, 0b1111100000000000#16] =
      .ok (.setPixel (-32768) 32767 0xF800#16) := by decide
theorem test_decode_fillRect :
    decode 0b0001000100000000#16 [0b1111111111111110#16, 0#16, 0b0000000000000100#16, 0b0000000000000001#16, 0x001F#16] =
      .ok (.fillRect (-2) 0 4 1 0x001F#16) := by decide
theorem test_decode_fill : decode 0b0001001000000000#16 [0b1111111111111111#16] = .ok (.fill 0xFFFF#16) := by decide
theorem test_decode_drawText :
    decode 0b0010000000000000#16 [0#16, 1#16, 0x1234#16, 2#16, 3#16, 1#16, 0b0000000000111000#16] =
      .ok (.drawText false 0 1 0x1234#16 2 3 [0x38#16]) := by decide
theorem test_decode_drawText_mirror :
    decode 0b0010000000000001#16 [0#16, 0#16, 0x1234#16, 1#16, 1#16, 0#16] =
      .ok (.drawText true 0 0 0x1234#16 1 1 []) := by decide
theorem test_decode_show : decode 0b0011000000000000#16 [] = .ok .showPanel := by decide

/-- V17: a zero header is illegal. V8: DRAW_TEXT flag bit 1 is reserved. V18: SET_PIXEL flag bit 0 is. -/
theorem test_decode_illegal :
    decode 0x0000#16 [] = .error .unknownOpcode ∧
    decode 0x2002#16 [0#16, 0#16, 0#16, 1#16, 1#16, 0#16] = .error .reservedFlags ∧
    decode 0x1001#16 [1#16, 1#16, 0xFFFF#16] = .error .reservedFlags := by decide

/-- A table row gives its 16 header bits; the operand words above them are zeros. -/
theorem test_table_words :
    decodeTableWord 16 0x0100 = some .init ∧ decodeTableWord 16 0x1000 = some (.setPixel 0 0 0#16) ∧
    decodeTableWord 16 0x1100 = some (.fillRect 0 0 0 0 0#16) ∧ decodeTableWord 16 0x1200 = some (.fill 0#16) ∧
    decodeTableWord 16 0x2001 = some (.drawText true 0 0 0#16 0 0 []) ∧ decodeTableWord 16 0x3000 = some .showPanel := by
  decide

/-! ### The test configurations (spec/95_test_vectors.md) -/

/-- `T_ROM`. -/
def Slice0.testRom : InitRom :=
  { setup := [⟨0x3A#8, [0x05#8], by decide⟩], exitSleep := ⟨0x11#8, [], by decide⟩, displayOn := ⟨0x29#8, [], by decide⟩ }

/-- A small panel with `T_ROM`. -/
def Slice0.params (w h : Nat) : Params := { Params.reference with w := w, h := h, initRom := Slice0.testRom }

/-- A block with this packet accepted and not yet performed, and these bus answers. -/
def Slice0.loaded (p : Params) (script : List BusDraw) (panel : PanelState) (hdr : Word) (args : List Word) : State :=
  loadPacket hdr args { State.resetWith p { script := script, taken := 0 } [] none with panel := panel }

/-- An idle block with these host inputs. -/
def Slice0.hosted (p : Params) (inputs : List Input) : State :=
  State.resetWith p { script := List.replicate 40 .ok, taken := 0 } inputs none

/-- Twenty answers `ok`. -/
def Slice0.oks : List BusDraw := List.replicate 20 .ok

/-- The state one step later. -/
def Slice0.after (s : State) : State :=
  match step s with
  | .next t => t
  | .fault _ => s
  | .refused _ => s

/-- Whether a step answers a next state. -/
def Slice0.goesOn (s : State) : Bool :=
  match step s with
  | .next _ => true
  | .fault _ => false
  | .refused _ => false

theorem Slice0.step_after {s : State} (h : Slice0.goesOn s = true) : step s = .next (Slice0.after s) := by
  unfold Slice0.goesOn at h
  unfold Slice0.after
  split at h <;> simp_all

/-- The pixels of row `y` that hold `c`, left to right. -/
def Slice0.rowOf (s : State) (c : Color) (y : Nat) : List Bool :=
  (List.range s.cfg.w).map fun x => pixRead s.cfg x y s.fb == c

open Slice0

/-! ### One step of each operation -/

/-- V20. -/
theorem test_init_V20 :
    traceBytes (after (loaded (params 4 2) oks .uninit 0x0100#16 [])).trace =
      [(false, 0x3A#8), (true, 0x05#8), (false, 0x11#8), (false, 0x29#8)] ∧
    (after (loaded (params 4 2) oks .uninit 0x0100#16 [])).trace.length = 23 ∧
    statusWord (after (loaded (params 4 2) oks .uninit 0x0100#16 [])) = 0x0002#16 := by decide +kernel

/-- V24, first INIT. -/
theorem test_init_fault_V24 :
    (after (loaded (params 4 2) [.fault 0] .uninit 0x0100#16 [])).trace =
      [.pin .rstN true, .pin .rstN false, .pin .rstN true, .pin .csN true, .pin .dc false, .pin .csN false, .pin .csN true] ∧
    statusWord (after (loaded (params 4 2) [.fault 0] .uninit 0x0100#16 [])) = 0x0010#16 := by decide +kernel

/-- V9, both byte orders. -/
theorem test_setPixel_V9 :
    (fbBytesOf (params 4 2) (after (loaded (params 4 2) [] .uninit 0x1000#16 [0#16, 0#16, 0x1234#16])).fb).take 3 =
      [0x34#8, 0x12#8, 0x00#8] ∧
    (fbBytesOf { params 4 2 with byteOrder := .be }
      (after (loaded { params 4 2 with byteOrder := .be } [] .uninit 0x1000#16 [0#16, 0#16, 0x1234#16])).fb).take 3 =
      [0x12#8, 0x34#8, 0x00#8] := by decide +kernel

/-- V10: the last pixel of the reference panel. -/
theorem test_setPixel_V10 :
    (after (loaded (params 320 240) [] .uninit 0x1000#16 [319#16, 239#16, 0xABCD#16])).fb =
      [(153598, 0xCD#8), (153599, 0xAB#8)] := by decide +kernel

/-- V12: a corner clipped on both upper bounds. -/
theorem test_fillRect_V12 :
    (after (loaded (params 320 240) [] .uninit 0x1100#16 [318#16, 238#16, 5#16, 5#16, 0x0101#16])).fb.map Prod.fst =
      [152956, 152957, 152958, 152959, 153596, 153597, 153598, 153599] := by decide +kernel

/-- P2, its second packet on a cleared framebuffer. -/
theorem test_fillRect_P2 :
    fbBytesOf (params 4 2)
      (after (loaded (params 4 2) [] .uninit 0x1100#16 [0xFFFF#16, 0xFFFF#16, 3#16, 2#16, 0xFFFF#16])).fb =
      [0xFF#8, 0xFF#8, 0xFF#8, 0xFF#8, 0#8, 0#8, 0#8, 0#8, 0#8, 0#8, 0#8, 0#8, 0#8, 0#8, 0#8, 0#8] := by decide +kernel

/-- V16. -/
theorem test_fill_V16 :
    fbBytesOf (params 4 2) (after (loaded (params 4 2) [] .ready 0x1200#16 [0xF800#16])).fb =
      [0#8, 0xF8#8, 0#8, 0xF8#8, 0#8, 0xF8#8, 0#8, 0xF8#8, 0#8, 0xF8#8, 0#8, 0xF8#8, 0#8, 0xF8#8, 0#8, 0xF8#8] := by
  decide +kernel

/-- V2: rows 0 and 1 of the mirrored '8'. -/
theorem test_drawText_mirror_V2 :
    rowOf (after (loaded (params 8 8) [] .uninit 0x2001#16 [0#16, 0#16, 1#16, 1#16, 1#16, 1#16, 0x38#16])) 1#16 0 =
      [false, true, true, true, true, true, false, false] ∧
    rowOf (after (loaded (params 8 8) [] .uninit 0x2001#16 [0#16, 0#16, 1#16, 1#16, 1#16, 1#16, 0x38#16])) 1#16 1 =
      [true, true, false, false, false, true, true, false] := by decide +kernel

/-- P4: scaled text clipped on a tiny panel. -/
theorem test_drawText_P4 :
    fbBytesOf (params 4 2)
      (after (loaded (params 4 2) [] .uninit 0x2000#16 [0#16, 0#16, 0x07E0#16, 2#16, 1#16, 1#16, 0x38#16])).fb =
      [0#8, 0#8, 0#8, 0#8, 0#8, 0#8, 0#8, 0#8, 0#8, 0#8, 0#8, 0#8, 0xE0#8, 0x07#8, 0xE0#8, 0x07#8] := by decide +kernel

/-- V21, on the framebuffer of V16. -/
theorem test_show_V21 :
    traceBytes (after { loaded (params 4 2) oks .ready 0x3000#16 [] with fb := fillAll (params 4 2) 0xF800#16 [] }).trace =
      [(false, 0x2A#8), (true, 0#8), (true, 0#8), (true, 0#8), (true, 3#8),
       (false, 0x2B#8), (true, 0#8), (true, 0#8), (true, 0#8), (true, 1#8), (false, 0x2C#8)] ++
      (List.replicate 8 [(true, 0#8), (true, 0xF8#8)]).flatten := by decide +kernel

/-- V23. -/
theorem test_show_fault_V23 :
    traceFrames (after (loaded (params 4 2) [.ok, .ok, .ok, .ok, .ok, .fault 0] .ready 0x3000#16 [])).trace =
      [(false, [0x2A#8]), (true, [0#8]), (true, [0#8]), (true, [0#8]), (true, [3#8]), (false, [])] ∧
    statusWord (after (loaded (params 4 2) [.ok, .ok, .ok, .ok, .ok, .fault 0] .ready 0x3000#16 [])) = 0x0012#16 := by
  decide +kernel

/-- V19: SHOW in UNINIT, INIT in READY, ILLEGAL in READY. -/
theorem test_status_V19 :
    statusWord (after (loaded (params 4 2) [] .uninit 0x3000#16 [])) = 0x0020#16 ∧
    statusWord (after (loaded (params 4 2) [] .ready 0x0100#16 [])) = 0x0022#16 ∧
    statusWord (after (loaded (params 4 2) [] .ready 0x0000#16 [])) = 0x0032#16 := by decide +kernel

/-- R109, R23: ahead of a read made past an INIT's acceptance comes the acceptance, with no event. -/
theorem test_acceptance :
    (after { loaded (params 4 2) [] .uninit 0x0100#16 [] with inputs := [.access (.read 2 16) .underWay] }).panel =
      .initializing ∧
    (after { loaded (params 4 2) [] .uninit 0x0100#16 [] with inputs := [.access (.read 2 16) .underWay] }).trace = [] := by
  decide +kernel

/-- R46, R23: `STATUS` of an accepted INIT is BUSY 1 and INITIALIZING at either moment, so it never goes back. -/
theorem test_status_read_in_init :
    ∀ m ∈ [Moment.accepted, Moment.underWay],
      (after { acceptInit (loaded (params 4 2) [] .uninit 0x0100#16 []) with
        inputs := [.access (.read 2 16) m] }).hostRead = some 0x0005#16 := by decide +kernel

/-- After reset, with an instruction's bits placed, the very next step runs it: SHOW in UNINIT is BAD_STATE (V26). -/
theorem test_withFetchWord :
    (after (State.reset.withFetchWord 16 0x3000)).result = .badState ∧
    (after (State.reset.withFetchWord 16 0x3000)).busy = false := by decide +kernel

/-! ### Witnesses: a concrete state and operands that meet each obligation's hypotheses -/

theorem witness_DecodeEncodeRoundTrip :
    Instr.wellFormed (.drawText true (-32768) 32767 0xFFFF#16 (-32768) 32767 [0x38#16]) = true ∧
    Instr.wellFormed (.fillRect 32767 (-32768) 32767 (-32768) 0#16) = true := by decide

theorem witness_DecodedPacketIsItsEncoding :
    decode 0x1000#16 [0x0003#16, 0xFFFF#16, 0xFFFF#16] = .ok (.setPixel 3 (-1) 0xFFFF#16) := by decide

theorem witness_PacketLengths :
    opcodeField 0x0100#16 = 0x01#8 ∧ opcodeField 0x10FF#16 = 0x10#8 ∧ opcodeField 0x1100#16 = 0x11#8 ∧
    opcodeField 0x1200#16 = 0x12#8 ∧
    (opcodeField 0x2000#16 = 0x20#8 ∧ ([0#16, 0#16, 0#16, 0#16, 0#16, 0xFFFF#16] : List Word)[5]? = some 0xFFFF#16) ∧
    (opcodeField 0x20FE#16 = 0x20#8 ∧ ([0#16, 0#16, 0#16, 0#16, 0#16] : List Word).length ≤ 5) ∧
    opcodeField 0x3000#16 = 0x30#8 ∧
    opcodeField 0x00FF#16 ∉ [0x01#8, 0x10#8, 0x11#8, 0x12#8, 0x20#8, 0x30#8] ∧
    opcodeField 0xFF00#16 ∉ [0x01#8, 0x10#8, 0x11#8, 0x12#8, 0x20#8, 0x30#8] := by decide

theorem witness_PacketReceivedWordByWord :
    let ws : List (Word × Moment) := [(0x1200#16, .idle), (0xF800#16, .accepted)]
    let s := hosted (params 4 2) (ws.map (fun e => .access (.write 0 16 e.1) e.2) ++ [.reset])
    configOk s.cfg = true ∧ s.busy = false ∧ s.latch.rxcount = 0 ∧ s.latch.args = [] ∧
    packetLength 0x1200#16 [0xF800#16] = some ([0xF800#16].length + 1) ∧ ws.map Prod.fst = [0x1200#16, 0xF800#16] ∧
    s.inputs = ws.map (fun e => .access (.write 0 16 e.1) e.2) ++ [.reset] := by decide +kernel

theorem witness_StepRunsDecodedOperation :
    let s := loaded (params 4 2) [] .uninit 0x1200#16 [0xF800#16]
    configOk s.cfg = true ∧ s.busy = true ∧ nextInput s = none ∧
    decode s.latch.hdr s.latch.args = .ok (.fill 0xF800#16) ∧
    configOk State.reset.cfg = true ∧ decodeTableWord 16 0x2000 = some (.drawText false 0 0 0#16 0 0 []) := by decide +kernel

theorem witness_IllegalPacketHasNoEffect :
    let s := loaded (params 4 2) [] .ready 0xFFFF#16 []
    let s' := loaded (params 4 2) [] .uninit 0x1001#16 [1#16, 1#16, 0xFFFF#16]
    configOk s.cfg = true ∧ s.busy = true ∧ nextInput s = none ∧
    (s.latch.rxcount = 0 ∧ packetLength s.latch.hdr s.latch.args = some (s.latch.args.length + 1)) ∧
    headerOpcode s.latch.hdr = none ∧
    configOk s'.cfg = true ∧ s'.busy = true ∧ nextInput s' = none ∧
    (s'.latch.rxcount = 0 ∧ packetLength s'.latch.hdr s'.latch.args = some (s'.latch.args.length + 1)) ∧
    headerOpcode s'.latch.hdr = some .setPixel ∧ flagsField s'.latch.hdr &&& reservedFlags .setPixel ≠ 0#8 := by decide +kernel

/-- Each clause: unknown opcode, reserved flags, INIT and SHOW in the wrong STATE, with every frame sent, with a frame that
fails (an INIT not accepted yet and accepted already), and an operation that sends none. -/
theorem witness_ResultCodePriority :
    (∀ s ∈ [loaded (params 4 2) [] .uninit 0x0000#16 [], loaded (params 4 2) [] .uninit 0x0101#16 [],
        loaded (params 4 2) [] .ready 0x0100#16 [], loaded (params 4 2) oks .uninit 0x0100#16 [],
        loaded (params 4 2) [.fault 1] .uninit 0x0100#16 [],
        acceptInit (loaded (params 4 2) oks .uninit 0x0100#16 []),
        acceptInit (loaded (params 4 2) [.fault 1] .uninit 0x0100#16 []), loaded (params 4 2) [] .uninit 0x3000#16 [],
        loaded (params 4 2) oks .ready 0x3000#16 [], loaded (params 4 2) [.ok, .fault 0] .ready 0x3000#16 [],
        loaded (params 4 2) [] .uninit 0x1200#16 [0#16]],
      configOk s.cfg = true ∧ s.busy = true ∧ nextInput s = none ∧ s.latch.rxcount = 0 ∧
      packetLength s.latch.hdr s.latch.args = some (s.latch.args.length + 1)) ∧
    (initAccepted (loaded (params 4 2) [] .ready 0x0100#16 []) = false ∧
      ∀ bs, initAccepted (acceptInit (loaded (params 4 2) bs .uninit 0x0100#16 [])) = true) ∧
    headerOpcode 0x0000#16 = none ∧
    flagsField 0x0101#16 &&& reservedFlags .init ≠ 0#8 ∧ flagsField 0x0100#16 &&& reservedFlags .init = 0#8 ∧
    flagsField 0x3000#16 &&& reservedFlags .showPanel = 0#8 ∧ flagsField 0x1200#16 &&& reservedFlags .fill = 0#8 ∧
    (∀ k, k < (initFrames (params 4 2)).length → BusEnv.drawAt { script := oks, taken := 0 } (0 + k) = .ok) ∧
    ¬ (∀ k, k < (initFrames (params 4 2)).length → BusEnv.drawAt { script := [.fault 1], taken := 0 } (0 + k) = .ok) ∧
    (∀ k, k < (showFrames (params 4 2) []).length → BusEnv.drawAt { script := oks, taken := 0 } (0 + k) = .ok) ∧
    ¬ (∀ k, k < (showFrames (params 4 2) []).length → BusEnv.drawAt { script := [.ok, .fault 0], taken := 0 } (0 + k) = .ok) := by
  refine ⟨by decide +kernel, ⟨by decide, fun _ => rfl⟩, by decide +kernel, by decide +kernel, by decide +kernel,
    by decide +kernel, by decide +kernel, by decide +kernel, fun h => ?_, by decide +kernel, fun h => ?_⟩
  · exact absurd (h 0 (by decide +kernel)) (by decide +kernel)
  · exact absurd (h 1 (by decide +kernel)) (by decide +kernel)

theorem witness_PartialPacketWaitsForEver :
    let s := { hosted (params 4 2) [] with latch := { hdr := 0x2000#16, args := [0#16], rxcount := 2 } }
    configOk s.cfg = true ∧ s.busy = false ∧ s.inputs = [] := by decide +kernel

theorem witness_CmdWriteWaitsWhileBusy :
    let s := { loaded (params 4 2) [] .uninit 0x3000#16 [] with inputs := [.access (.write 0 16 0x3000#16) .underWay] }
    configOk s.cfg = true ∧ s.busy = true ∧
    (s.latch.rxcount = 0 ∧ packetLength s.latch.hdr s.latch.args = some (s.latch.args.length + 1)) ∧
    s.inputs = .access (.write 0 16 0x3000#16) .underWay :: [] := by decide +kernel

/-- Reads at `STATUS`, at `CMD` and at the first reserved offset, of an INIT not past its acceptance and of one accepted;
ignored writes at 2 and 4; a read and a write that wait for the acceptance; a `CMD` write. -/
theorem witness_HostAccessEffects :
    (∀ offset ∈ [0, 2, 4],
      let s := { loaded (params 4 2) [] .uninit 0x0100#16 [] with inputs := [.access (.read offset 16) .accepted] }
      configOk s.cfg = true ∧ offset % 2 = 0 ∧ (s.busy = true → Moment.accepted ≠ .idle) ∧
      s.inputs = .access (.read offset 16) .accepted :: [] ∧ Moment.accepted ≠ .underWay) ∧
    (∀ offset ∈ [0, 2, 4],
      let s := { acceptInit (loaded (params 4 2) [] .uninit 0x0100#16 []) with inputs := [.access (.read offset 16) .underWay] }
      configOk s.cfg = true ∧ offset % 2 = 0 ∧ (s.busy = true → Moment.underWay ≠ .idle) ∧
      s.inputs = .access (.read offset 16) .underWay :: [] ∧ s.panel ≠ .uninit) ∧
    (∀ a ∈ [HostAccess.read 2 16, .write 2 16 0#16],
      let s := { loaded (params 4 2) [] .uninit 0x0100#16 [] with inputs := [.access a .underWay] }
      configOk s.cfg = true ∧ (s.busy = true → Moment.underWay ≠ .idle) ∧ s.inputs = .access a .underWay :: [] ∧
      s.busy = true ∧ s.latch.hdr = 0x0100#16 ∧ s.panel = .uninit) ∧
    (∀ offset ∈ [2, 4],
      let s := hosted (params 4 2) [.access (.write offset 16 1#16) .idle]
      configOk s.cfg = true ∧ offset % 2 = 0 ∧ (s.busy = true → Moment.idle ≠ .idle) ∧ offset ≠ 0 ∧
      s.inputs = .access (.write offset 16 1#16) .idle :: [] ∧ Moment.idle ≠ .underWay) ∧
    (∀ s ∈ [hosted (params 4 2) [.access (.write 0 16 1#16) .idle]],
      configOk s.cfg = true ∧ (s.busy = true → Moment.idle ≠ .idle) ∧ s.busy = false ∧
      s.inputs = .access (.write 0 16 1#16) .idle :: []) := by decide +kernel

theorem witness_MisshapedAccessRefused :
    let s := hosted (params 4 2) [.access (.read 2 8) .idle]
    let s' := { loaded (params 4 2) [] .uninit 0x0100#16 [] with inputs := [.access (.write 1 16 0#16) .accepted] }
    (configOk s.cfg = true ∧ (8 ≠ 16 ∨ 2 % 2 ≠ 0) ∧ (s.busy = true → Moment.idle ≠ .idle) ∧
      s.inputs = .access (.read 2 8) .idle :: []) ∧
    (configOk s'.cfg = true ∧ (16 ≠ 16 ∨ 1 % 2 ≠ 0) ∧ (s'.busy = true → Moment.accepted ≠ .idle) ∧
      s'.inputs = .access (.write 1 16 0#16) .accepted :: []) := by decide +kernel

theorem witness_BadSizeRefused :
    (hosted (params 0 2) []).cfg.w < 1 ∧ (hosted (params 4 0) []).cfg.h < 1 ∧
    (hosted (params 32768 2) []).cfg.w > 32767 ∧ (hosted (params 4 32768) []).cfg.h > 32767 := by decide

theorem witness_BadRomRefused :
    (∃ ch ∈ charset, (({ params 4 2 with glyphRom := [] } : Params).glyphRom.filter fun e => e.1 == ch).length ≠ 1) ∧
    (∃ e ∈ ({ params 4 2 with glyphRom := [(0x20#16, glyphEight)] } : Params).glyphRom, e.1 ∉ charset) ∧
    (∃ g, (0x38#16, g) ∈ ({ params 4 2 with glyphRom := [(0x38#16, ⟨1#8, 0#8, 0#8, 0#8, 0#8, 0#8, 0#8, 0#8⟩)] } : Params).glyphRom ∧
      g ≠ glyphEight) ∧
    ¬ (∃ pre : List RomEntry, ∃ a b : RomEntry,
        romEntries (params 4 2).initRom = pre ++ [a, b] ∧ a.cmd = 0x12#8 ∧ a.data = [] ∧ b.cmd = 0x29#8 ∧ b.data = []) := by
  refine ⟨⟨0x2F#16, by decide, by decide⟩, ⟨_, List.mem_singleton.2 rfl, by decide⟩, ⟨_, List.mem_singleton.2 rfl, by decide⟩, ?_⟩
  rintro ⟨pre, a, b, h, ha, -⟩
  have h' := congrArg (fun l => l[l.length - 2]?) h
  simp only [List.length_append, List.length_cons, List.length_nil] at h'
  rw [List.getElem?_append_right (by omega)] at h'
  simp [romEntries, params, testRom] at h'
  rw [← h'] at ha
  exact absurd ha (by decide)

theorem witness_BlockResetInput :
    let s := { loaded (params 4 2) [] .ready 0x3000#16 [] with inputs := [.reset] }
    configOk s.cfg = true ∧ s.inputs = .reset :: [] := by decide +kernel

/-- The canonical framebuffer of SET_PIXEL, FILL_RECT, FILL, DRAW_TEXT and `PixelReadsBackAsWritten`. -/
theorem witness_canonical :
    fbWf (params 4 2) [(0, 0x34#8), (15, 0x12#8)] = true ∧ 3 < (params 4 2).w ∧ 1 < (params 4 2).h ∧
    2 * 7 < (params 4 2).fbBytes := by decide

/-- Each of the ways to draw nothing, and a rectangle that covers the panel. -/
theorem witness_RectangleExtremes :
    ((0 : Int) ≤ 0) ∧ ((-3 : Int) + 3 ≤ 0) ∧ (((params 4 2).w : Int) ≤ 4) ∧ (((params 4 2).h : Int) ≤ 2) ∧
    ((-1 : Int) ≤ 0 ∧ (0 : Int) ≤ 0 ∧ ((params 4 2).w : Int) ≤ -1 + 5 ∧ ((params 4 2).h : Int) ≤ 0 + 2) := by decide

theorem witness_PixelsTileTheFramebuffer :
    3 < (params 4 2).w ∧ 1 < (params 4 2).h ∧ 15 < (params 4 2).fbBytes ∧ pixOff (params 4 2) 3 1 = pixOff (params 4 2) 3 1 := by
  decide

theorem witness_DrawingIgnoresPanel :
    let s := loaded (params 4 2) [] .uninit 0x1200#16 [0#16]
    let s' := loaded (params 4 2) oks .ready 0x1200#16 [0#16]
    drawsOnly (.fill 0#16) = true ∧ s.cfg = s'.cfg ∧ s.fb = s'.fb := ⟨rfl, rfl, rfl⟩

theorem witness_TextThatDrawsNothing :
    ((0 : Int) ≤ 0) ∧ ([] : List Word) = [] ∧ ∀ ch ∈ [0x20#16, 0x41#16, 0x2E#16, 0x3B#16], ch ∉ charset := by
  simp [charset]

/-- Two mirrored pixels of '8' drawn at the origin of an 8 by 8 panel: columns 1 and 6. -/
theorem witness_MirrorReversesColumns :
    let s := loaded (params 8 8) [] .uninit 0x2000#16 []
    fbWf s.cfg s.fb = true ∧ 1 < s.cfg.w ∧ 6 < s.cfg.w ∧ 0 < s.cfg.h ∧ ((1 : Nat) : Int) + (6 : Nat) = 2 * 0 + 8 * 1 - 1 ∧
    pixRead s.cfg 1 0 s.fb = pixRead s.cfg 6 0 s.fb ∧
    (∃ t, exec (.drawText true 0 0 1#16 1 1 [0x38#16]) s = .next t) ∧
    (∃ t, exec (.drawText false 0 0 1#16 1 1 [0x38#16]) s = .next t) :=
  ⟨rfl, by decide, by decide, by decide, by decide, rfl, ⟨_, rfl⟩, ⟨_, rfl⟩⟩

theorem witness_CharacterSetIsClosed : configOk Params.reference = true := by decide +kernel

theorem witness_FrameEventsAndReply :
    BusEnv.drawAt { script := [.ok], taken := 0 } 0 = .ok ∧ BusEnv.drawAt { script := [.fault 1], taken := 0 } 0 = .fault 1 ∧
    65535 ≤ 65535 := by decide

/-- Not accepted yet, and accepted already; also for `InitFrameCounts`. -/
theorem witness_InitBringsPanelUp :
    let s := loaded (params 4 2) oks .uninit 0x0100#16 []
    let s' := acceptInit s
    (s.panel = .uninit ∧ ∀ k, k < (initFrames s.cfg).length → s.bus.drawAt (s.bus.taken + k) = .ok) ∧
    (initAccepted s' = true ∧ ∀ k, k < (initFrames s'.cfg).length → s'.bus.drawAt (s'.bus.taken + k) = .ok) := by
  decide +kernel

/-- The second frame, a data frame, is the first to fail, its byte not sent. -/
theorem witness_InitBusFault :
    let s := loaded (params 4 2) [.ok, .fault 0] .uninit 0x0100#16 []
    s.panel = .uninit ∧ initAccepted (acceptInit s) = true ∧ (initFrames s.cfg)[1]? = some (true, [0x05#8]) ∧
    (∀ k, k < 1 → s.bus.drawAt (s.bus.taken + k) = .ok) ∧ s.bus.drawAt (s.bus.taken + 1) = .fault 0 := by decide +kernel

theorem witness_Refused :
    (loaded (params 4 2) [] .ready 0x0100#16 []).panel ≠ .uninit ∧
    initAccepted (loaded (params 4 2) [] .ready 0x0100#16 []) = false ∧
    (loaded (params 4 2) [] .uninit 0x3000#16 []).panel ≠ .ready ∧
    (loaded (params 4 2) [] .initializing 0x3000#16 []).panel ≠ .ready := by decide

theorem witness_ShowSendsImage :
    let s := loaded (params 4 2) oks .ready 0x3000#16 []
    s.panel = .ready ∧ ∀ k, k < (showFrames s.cfg s.fb).length → s.bus.drawAt (s.bus.taken + k) = .ok := by decide +kernel

/-- The last frame, the pixel stream, is the first to fail, after five of its sixteen bytes. -/
theorem witness_ShowBusFault :
    let s := loaded (params 4 2) (List.replicate 11 .ok ++ [.fault 5]) .ready 0x3000#16 []
    s.panel = .ready ∧ (showFrames s.cfg s.fb)[11]? = some (true, fbBytesOf s.cfg s.fb) ∧
    (∀ k, k < 11 → s.bus.drawAt (s.bus.taken + k) = .ok) ∧ s.bus.drawAt (s.bus.taken + 11) = .fault 5 := by decide +kernel

theorem witness_ShowTransmitsFullFrame :
    let s := loaded (params 4 2) oks .ready 0x3000#16 []
    framing false s.trace = some false ∧ exec .showPanel s = .next (sendImage s) ∧ (sendImage s).result = .ok :=
  ⟨rfl, rfl, by decide +kernel⟩

/-- An accepted INIT meets the invariant, and its step answers a next state. -/
theorem witness_StepKeepsInvariant :
    Inv (loaded (params 4 2) oks .uninit 0x0100#16 []) ∧
    step (loaded (params 4 2) oks .uninit 0x0100#16 []) = .next (after (loaded (params 4 2) oks .uninit 0x0100#16 [])) :=
  ⟨{ config := by decide +kernel
     memory := rfl
     panel := by decide
     lines := rfl
     framed := rfl
     released := ⟨rfl, rfl, rfl⟩
     sequencer := rfl
     latch := ⟨rfl, rfl⟩ }, step_after (by decide +kernel)⟩

theorem witness_NoStepFaults :
    Inv (hosted (params 4 2) [.access (.read 2 32) .idle]) ∧
    step (hosted (params 4 2) [.access (.read 2 32) .idle]) = .refused .hostAccessShape :=
  ⟨{ config := by decide +kernel
     memory := rfl
     panel := by decide
     lines := rfl
     framed := rfl
     released := ⟨rfl, rfl, rfl⟩
     sequencer := rfl
     latch := rfl }, by
    rw [step, if_pos (by decide +kernel)]
    rfl⟩

/-- A READY block that shows, and an INIT that makes the block READY; no reset lands (also for `ConfigurationIsFixed` and
`TraceOnlyGrows`). -/
theorem witness_ReadyLastsUntilReset :
    let s := loaded (params 4 2) oks .ready 0x3000#16 []
    let s' := loaded (params 4 2) oks .uninit 0x0100#16 []
    step s = .next (after s) ∧ nextInput s = none ∧ s.panel = .ready ∧
    step s' = .next (after s') ∧ nextInput s' = none ∧ s'.panel ≠ .ready ∧ (after s').panel = .ready :=
  ⟨step_after (by decide +kernel), rfl, rfl, step_after (by decide +kernel), rfl, by decide, by decide +kernel⟩

theorem witness_OnlyDrawingWritesFramebuffer :
    let s := loaded (params 4 2) [] .uninit 0x1200#16 [0xF800#16]
    step s = .next (after s) ∧ (after s).fb ≠ s.fb :=
  ⟨step_after (by decide +kernel), by decide +kernel⟩

theorem witness_OnlyInitAndShowReachTheBus :
    let s := loaded (params 4 2) oks .ready 0x3000#16 []
    step s = .next (after s) ∧ (after s).trace ≠ s.trace :=
  ⟨step_after (by decide +kernel), by decide +kernel⟩

/-- An INIT that waits for its acceptance, one that runs from UNINIT, and two already accepted, with every frame sent and
with a frame that fails: each meets the invariant, no reset lands, and STATE changes. -/
theorem witness_PanelStateTransitions :
    let waiting := { loaded (params 4 2) oks .uninit 0x0100#16 [] with inputs := [.access (.read 2 16) .underWay] }
    let init := loaded (params 4 2) oks .uninit 0x0100#16 []
    let accepted := acceptInit init
    let failing := acceptInit (loaded (params 4 2) [.fault 0] .uninit 0x0100#16 [])
    (Inv waiting ∧ Inv init ∧ Inv accepted ∧ Inv failing) ∧
    (step waiting = .next (after waiting) ∧ step init = .next (after init) ∧ step accepted = .next (after accepted) ∧
      step failing = .next (after failing)) ∧
    (nextInput waiting = some (.access (.read 2 16) .underWay, []) ∧ nextInput init = none ∧ nextInput accepted = none ∧
      nextInput failing = none) ∧
    ((after waiting).panel ≠ waiting.panel ∧ (after init).panel ≠ init.panel ∧ (after accepted).panel ≠ accepted.panel ∧
      (after failing).panel ≠ failing.panel) := by
  refine ⟨⟨?_, ?_, ?_, ?_⟩, ⟨step_after (by decide +kernel), step_after (by decide +kernel), step_after (by decide +kernel),
    step_after (by decide +kernel)⟩, ⟨rfl, rfl, rfl, rfl⟩, by decide +kernel⟩ <;>
  exact
    { config := by decide +kernel
      memory := rfl
      panel := by decide
      lines := rfl
      framed := rfl
      released := ⟨rfl, rfl, rfl⟩
      sequencer := rfl
      latch := ⟨rfl, rfl⟩ }
end

section
/-! PROOFS. The statements of spec/00_scope.md: what `finish` writes, which configurations are refused, and that a step
from a state that meets the invariant has an answer. -/

namespace Sys2Proof

/-- A packet of the length its own header and arguments give has its operands read (R59, R60). -/
theorem decodeArgs_ok_of_packetLength {hdr : Word} {args : List Word} {op : Opcode} (ho : headerOpcode hdr = some op)
    (hlen : packetLength hdr args = some (args.length + 1)) : ∃ i, decodeArgs op hdr args = .ok i := by
  by_cases hop : op = .drawText
  · subst hop
    rw [packetLength_drawText ho] at hlen
    obtain ⟨n, hn, -⟩ := Option.map_eq_some_iff.1 hlen
    obtain ⟨h5, -⟩ := List.getElem?_eq_some_iff.1 hn
    match args, h5 with
    | _ :: _ :: _ :: _ :: _ :: _ :: _, _ => exact ⟨_, rfl⟩
  · rw [packetLength_fixed ho hop, Option.some.injEq] at hlen
    cases op with
    | drawText => exact absurd rfl hop
    | init | showPanel => match args, hlen with | [], _ => exact ⟨_, rfl⟩
    | setPixel => match args, hlen with | [_, _, _], _ => exact ⟨_, rfl⟩
    | fillRect => match args, hlen with | [_, _, _, _, _], _ => exact ⟨_, rfl⟩
    | fill => match args, hlen with | [_], _ => exact ⟨_, rfl⟩

/-- A packet of its own length is an operation or illegal for its opcode or its flags (R62, R63). -/
theorem decode_ne_notAPacket {hdr : Word} {args : List Word} (hlen : packetLength hdr args = some (args.length + 1)) :
    decode hdr args ≠ .error .notAPacket := by
  rw [decode, if_pos hlen]
  cases ho : headerOpcode hdr with
  | none => simp
  | some op =>
    obtain ⟨i, hi⟩ := decodeArgs_ok_of_packetLength ho hlen
    by_cases hf : flagsField hdr &&& reservedFlags op = 0#8 <;> simp [hf, hi]

end Sys2Proof

namespace Sys2Proof.Machine

variable {s : State}

/-- Every operation completes in every state: its failures are result codes of `finish` (R14, R133). -/
theorem exec_next (i : Instr) (s : State) : ∃ t, exec i s = .next t := by
  cases i with
  | init | showPanel => exact ⟨_, rfl⟩
  | setPixel | fillRect | fill | drawText => exact ⟨_, rfl⟩

/-- The packet of a whole latch is performed or finished as illegal (R73, R126). -/
theorem perform_next (h : latchWhole s.latch) : ∃ t, perform s = .next t := by
  obtain ⟨-, hlen⟩ := h
  unfold perform
  split
  · exact exec_next _ s
  · exact ⟨_, rfl⟩
  · exact ⟨_, rfl⟩
  · exact absurd ‹_› (decode_ne_notAPacket hlen)

/-- A host access is served, or refused for its width or alignment (R44). -/
theorem serve_cases (a : HostAccess) (s : State) :
    (∃ t, serve a s = .next t) ∨ (serve a s = .refused .hostAccessShape ∧ shapeOk a = false) := by
  cases a with
  | read offset width | write offset width v =>
    cases h : accessOk offset width with
    | true => exact .inl ⟨_, if_pos h⟩
    | false => exact .inr ⟨if_neg (by simp [h]), h⟩

/-- The input that lands is the head of the host's inputs. -/
theorem inputs_of_nextInput {i : Input} {rest : List Input} (h : nextInput s = some (i, rest)) :
    s.inputs = i :: rest := by
  unfold nextInput at h
  split at h
  · cases h
  · split_ifs at h
    cases h
    assumption

/-- The host's next input is an access that is not 16 bits wide at an even offset. -/
def misshapedNext (s : State) : Prop := ∃ a m rest, s.inputs = .access a m :: rest ∧ shapeOk a = false

/-- Where the latch of a BUSY block is whole, the block goes on, or refuses the host's next access for its shape. -/
theorem advance_cases (hl : s.busy = true → latchWhole s.latch) :
    (∃ t, advance s = .next t) ∨ (advance s = .refused .hostAccessShape ∧ misshapedNext s) := by
  unfold advance
  split
  case h_1 i rest hi =>
    split_ifs
    · exact .inl ⟨_, rfl⟩
    · cases i with
      | reset => exact .inl ⟨_, rfl⟩
      | access a m =>
        exact (serve_cases a { s with inputs := rest }).imp_right fun ⟨hr, ha⟩ =>
          ⟨hr, a, m, rest, inputs_of_nextInput hi, ha⟩
  case h_2 =>
    split_ifs with hb
    · exact .inl (perform_next (hl hb))
    · exact .inl ⟨s, rfl⟩

/-- Under the invariant a step answers a next state, or is refused for the shape of the host's next access. -/
theorem step_next_or_misshaped (h : Inv s) :
    (∃ t, step s = .next t) ∨ (step s = .refused .hostAccessShape ∧ misshapedNext s) := by
  rw [step, if_pos h.config]
  exact advance_cases fun hb => by simpa only [hb, if_true] using h.latch

theorem accessOk_eq_false {offset width : Nat} : accessOk offset width = false ↔ width ≠ 16 ∨ offset % 2 ≠ 0 := by
  simp only [accessOk, Bool.and_eq_false_iff, beq_eq_false_iff_ne]

/-- R9's bounds on the panel, as the configuration check decides them. -/
theorem sizeOk_iff {p : Params} : sizeOk p = true ↔ 1 ≤ p.w ∧ p.w ≤ 32767 ∧ 1 ≤ p.h ∧ p.h ≤ 32767 :=
  decide_eq_true_iff

/-- A configuration that fails its check is refused (R9). -/
theorem step_refused_of_configOk_ne (h : configOk s.cfg ≠ true) : step s = .refused .badConfiguration := if_neg h

end Sys2Proof.Machine

open Sys2Proof Sys2Proof.Machine

/-- Settles O48: the invariant keeps the latch of a BUSY block whole, so its packet is performed, and every other branch of
a step but the refusal of `serve` answers a next state. -/
theorem noStepFaults : Obligations.NoStepFaults := by
  intro s hs
  obtain ⟨t, ht⟩ | ⟨hr, a, m, rest, hi, ha⟩ := step_next_or_misshaped hs
  · simp [ht]
  · refine ⟨by simp [hr], fun r h => ⟨by simpa [hr] using h.symm, m, rest, ?_⟩⟩
    cases a with
    | read offset width => exact ⟨offset, width, 0#16, accessOk_eq_false.1 ha, .inl hi⟩
    | write offset width v => exact ⟨offset, width, v, accessOk_eq_false.1 ha, .inr hi⟩

/-- Settles O15: such a size fails `sizeOk`, which `configOk` asks for. -/
theorem badSizeRefused : Obligations.BadSizeRefused := by
  intro s hsize
  refine step_refused_of_configOk_ne fun hc => ?_
  simp only [configOk, Bool.and_eq_true, sizeOk_iff] at hc
  omega

/-- Settles O19, by the one lemma per field of `finish`. -/
theorem finishEffect : Obligations.FinishEffect := fun code s =>
  ⟨finish_result code s, finish_busy code s, finish_seq code s, finish_latch code s, finish_panel code s,
    finish_lines code s, finish_trace code s, finish_fb code s, finish_cfg code s, finish_bus code s,
    finish_inputs code s, finish_hostRead code s⟩
end

section
/-! PROOFS. The statements of spec/10_state.md: the `STATUS` word, the reset values, and what every step keeps. Every
performed operation leaves the block in one shape, `ended`, said once by `exec_cases`; the claims about all steps use it. -/

namespace Sys2Proof

/-! ### The header of an INIT -/

/-- A whole packet with INIT's header is an INIT (R59, R61). -/
theorem decode_initHeader {args : List Word} (hlen : packetLength 0x0100#16 args = some (args.length + 1)) :
    decode 0x0100#16 args = .ok .init := by
  have hargs : args = [] := by
    simpa [packetLength_fixed (h := 0x0100#16) (op := .init) rfl (by decide), opcodeLength] using hlen
  rw [hargs]
  rfl

theorem opcode_of_decodeArgs_init {op : Opcode} {hdr : Word} {args : List Word}
    (h : decodeArgs op hdr args = .ok .init) : op = .init := by
  cases op with
  | init => rfl
  | setPixel | fillRect | fill | showPanel =>
    simp only [decodeArgs] at h
    split at h <;> cases h
  | drawText =>
    simp only [decodeArgs, decodeText] at h
    split at h <;> cases h

/-- Only INIT's opcode with every flag bit 0 decodes to an INIT (R61, R62). -/
theorem header_of_decode_init {hdr : Word} {args : List Word} (h : decode hdr args = .ok .init) : hdr = 0x0100#16 := by
  unfold decode at h
  split_ifs at h
  split at h
  · cases h
  · rename_i op ho
    split_ifs at h with hf
    obtain rfl := opcode_of_decodeArgs_init h
    rw [show reservedFlags .init = BitVec.allOnes 8 from rfl, BitVec.and_allOnes] at hf
    rw [← encodeHeader_headerOpcode ho, hf]
    rfl

/-! ### Packet lengths while words still come in -/

/-- A packet's length is known from its header, or is a DRAW_TEXT's (R59). -/
theorem packetLength_cases (hdr : Word) :
    (∃ n, 1 ≤ n ∧ ∀ args, packetLength hdr args = some n) ∨ headerOpcode hdr = some .drawText := by
  cases ho : headerOpcode hdr with
  | none => exact .inl ⟨1, le_refl 1, packetLength_unknown ho⟩
  | some op =>
    by_cases hop : op = .drawText
    · exact .inr (by rw [hop])
    · exact .inl ⟨_, by cases op <;> simp [opcodeLength], packetLength_fixed ho hop⟩

theorem packetLength_drawText_eq_none {hdr : Word} (ho : headerOpcode hdr = some .drawText) {args : List Word} :
    packetLength hdr args = none ↔ args.length ≤ 5 := by
  rw [packetLength_drawText ho, Option.map_eq_none_iff, List.getElem?_eq_none_iff]

theorem packetLength_drawText_ge {hdr : Word} (ho : headerOpcode hdr = some .drawText) {args : List Word} {n : Nat}
    (h : packetLength hdr args = some n) : 7 ≤ n := by
  rw [packetLength_drawText ho] at h
  obtain ⟨k, -, rfl⟩ := Option.map_eq_some_iff.1 h
  omega

/-- A packet's length, once known, is not changed by the words that follow (R59, R73). -/
theorem packetLength_append {hdr : Word} {args : List Word} {n : Nat} (h : packetLength hdr args = some n)
    (more : List Word) : packetLength hdr (args ++ more) = some n := by
  obtain ⟨k, -, hk⟩ | ho := packetLength_cases hdr
  · rw [hk] at h ⊢
    exact h
  · rw [packetLength_drawText ho] at h ⊢
    obtain ⟨c, hc, rfl⟩ := Option.map_eq_some_iff.1 h
    rw [List.getElem?_append_left (List.getElem?_eq_some_iff.1 hc).1, hc]
    rfl

end Sys2Proof

namespace Sys2Proof.Machine

variable {s t : State}

/-! ### The `STATUS` word -/

/-- The bits of `STATUS`, from STATE up to RESULT and the zeros above it (R121). -/
theorem statusWord_getLsbD (s : State) (i : Nat) : (statusWord s).getLsbD i =
    if i < 2 then (panelBits s.panel).getLsbD i
    else if i = 2 then s.busy
    else if i = 3 then false
    else (resultBits s.result).getLsbD (i - 4) := by
  have hw : (statusWord s).getLsbD i = (0#9 ++ resultBits s.result ++ 0#1 ++ BitVec.ofBool s.busy ++
    panelBits s.panel : BitVec (9 + 3 + 1 + 1 + 2)).getLsbD i := rfl
  simp only [hw, BitVec.getLsbD_append]
  obtain hi | rfl | rfl | hi : i < 2 ∨ i = 2 ∨ i = 3 ∨ 4 ≤ i := by omega
  · simp [hi]
  · simp
  · simp
  · have hsub : i - 2 - 1 - 1 = i - 4 := by omega
    simp only [hsub, show ¬ i < 2 by omega, show ¬ i - 2 < 1 by omega, show ¬ i - 2 - 1 < 1 by omega,
      show i ≠ 2 by omega, show i ≠ 3 by omega, if_false]
    split_ifs with h3
    · rfl
    · rw [BitVec.getLsbD_zero, BitVec.getLsbD_of_ge _ _ (by omega)]

theorem statusWord_resetWith (p : Params) (e : BusEnv) (is : List Input) (r : Option Word) :
    statusWord (State.resetWith p e is r) = 0x0000#16 := by
  simp [statusWord, State.resetWith, panelBits, resultBits]

/-! ### The packet latch (R33, R73) -/

/-- The words latched are as many as counted, and no more than their packet takes. -/
def latchFits (l : Latch) : Prop :=
  l.args.length + 1 = l.rxcount ∧ (packetLength l.hdr l.args = none → l.rxcount < 7) ∧
    ∀ n, packetLength l.hdr l.args = some n → l.rxcount ≤ n

theorem latchFits_header (w : Word) : latchFits { hdr := w, args := [], rxcount := 1 } := by
  refine ⟨rfl, fun _ => show 1 < 7 by omega, fun n hn => ?_⟩
  obtain ⟨k, hk, hlen⟩ | ho := packetLength_cases w
  · rw [hlen, Option.some.injEq] at hn
    exact hn ▸ hk
  · exact le_trans (by decide : 1 ≤ 7) (packetLength_drawText_ge ho hn)

/-- One more word fits a packet that is still short of its length. -/
theorem latchFits_argument {l : Latch} (h0 : l.rxcount ≠ 0) (h : latchReceiving l) (w : Word) :
    latchFits { l with args := l.args ++ [w], rxcount := l.rxcount + 1 } := by
  simp only [latchReceiving, h0, if_false] at h
  obtain ⟨hcount, ⟨hnone, hlt⟩ | ⟨k, hk, hlt⟩⟩ := h
  · have ho : headerOpcode l.hdr = some .drawText := by
      refine (packetLength_cases l.hdr).resolve_left fun ⟨n, _, hlen⟩ => ?_
      simp [hlen] at hnone
    refine ⟨by simp [hcount], fun hn => ?_, fun n hn => ?_⟩
    · have hshort := (packetLength_drawText_eq_none ho).1 hn
      simp only [List.length_append, List.length_singleton] at hshort ⊢
      omega
    · exact le_trans hlt (packetLength_drawText_ge ho hn)
  · refine ⟨by simp [hcount], fun hn => ?_, fun n hn => ?_⟩
    · simp [packetLength_append hk] at hn
    · obtain rfl : k = n := by simpa [packetLength_append hk] using hn
      exact hlt

theorem latchFits_latchWord {l : Latch} (h : latchReceiving l) (w : Word) : latchFits (latchWord w l) := by
  unfold latchWord
  split_ifs with h0
  · have hargs : l.args = [] := by simpa only [latchReceiving, h0, if_true] using h
    rw [hargs]
    exact latchFits_header w
  · exact latchFits_argument h0 h w

/-- The word just latched was its packet's last (R73). -/
def latchComplete (l : Latch) : Prop := packetLength l.hdr l.args = some l.rxcount

/-- A complete packet is whole once `RXCOUNT` is back at 0. -/
theorem latchFits.whole {l : Latch} (h : latchFits l) (hc : latchComplete l) : latchWhole { l with rxcount := 0 } := by
  obtain ⟨hcount, -⟩ := h
  exact ⟨rfl, hcount ▸ hc⟩

/-- A packet that is not complete is still being received. -/
theorem latchFits.receiving {l : Latch} (h : latchFits l) (hc : ¬ latchComplete l) : latchReceiving l := by
  obtain ⟨hcount, hnone, hsome⟩ := h
  rw [latchReceiving, if_neg (by omega)]
  refine ⟨hcount, ?_⟩
  cases hp : packetLength l.hdr l.args with
  | none => exact .inl ⟨rfl, hnone hp⟩
  | some n =>
    have hne : l.rxcount ≠ n := fun he => hc (by rw [latchComplete, hp, he])
    have hle := hsome n hp
    exact .inr ⟨n, rfl, by omega⟩

/-- What a received word does: it makes the packet complete and BUSY 1, or it is latched and no more (R73). -/
theorem receive_cases (w : Word) (s : State) :
    (latchComplete (latchWord w s.latch) ∧ receive w s = { s with
        latch := { latchWord w s.latch with rxcount := 0 }
        busy := true
        seq := { s.seq with op := headerOpcode (latchWord w s.latch).hdr } }) ∨
      (¬ latchComplete (latchWord w s.latch) ∧ receive w s = { s with latch := latchWord w s.latch }) := by
  by_cases h : latchComplete (latchWord w s.latch)
  · exact .inl ⟨h, if_pos h⟩
  · exact .inr ⟨h, if_neg h⟩

@[simp] theorem receive_trace (w : Word) (s : State) : (receive w s).trace = s.trace := by
  obtain ⟨-, h⟩ | ⟨-, h⟩ := receive_cases w s <;> rw [h]

@[simp] theorem receive_panel (w : Word) (s : State) : (receive w s).panel = s.panel := by
  obtain ⟨-, h⟩ | ⟨-, h⟩ := receive_cases w s <;> rw [h]

/-! ### What is sent on the bus -/

/-- Events of whole frames, after INIT's reset pulse or without it: all that an operation puts on the trace. -/
def busEvents (es : List Event) : Prop := ∃ fs, es = framesEvents fs ∨ es = pulseEvents ++ framesEvents fs

theorem busEvents_nil : busEvents [] := ⟨[], .inl rfl⟩

theorem busEvents.framing {es : List Event} (h : busEvents es) : framing false es = some false := by
  obtain ⟨fs, rfl | rfl⟩ := h <;> exact framing_framesEvents fs

/-- The panel deselected and out of reset, and the clock idle. -/
def linesReleased (l : Lines) : Prop := l.csN = true ∧ l.rstN = true ∧ l.sclk = false

theorem linesReleased_framesEvents {l : Lines} (h : linesReleased l) (fs : List Frame) :
    linesReleased (linesAfter l (framesEvents fs)) := by
  obtain ⟨hcs, hrst, hclk⟩ := h
  obtain ⟨hcs', hrst', hclk'⟩ := linesAfter_framesEvents l fs hcs hclk
  exact ⟨hcs', hrst'.trans hrst, hclk'⟩

theorem linesReleased_pulseEvents {l : Lines} (h : linesReleased l) : linesReleased (linesAfter l pulseEvents) := by
  obtain ⟨hcs, -, hclk⟩ := h
  exact ⟨hcs, rfl, hclk⟩

theorem busEvents.released {es : List Event} (hes : busEvents es) {l : Lines} (h : linesReleased l) :
    linesReleased (linesAfter l es) := by
  obtain ⟨fs, rfl | rfl⟩ := hes
  · exact linesReleased_framesEvents h fs
  · rw [linesAfter_append]
    exact linesReleased_framesEvents (linesReleased_pulseEvents h) fs

/-- Whatever the bus answers, what `Sends` leaves is `s` with the events of some frames sent. -/
theorem Sends.sent {fs : List Frame} {r : State × BusReply} (h : Sends fs s r) :
    ∃ q gs n, r.1 = setSeq q (Machine.sent (framesEvents gs) n s) := by
  obtain hc | ⟨k, p, hk, hf⟩ := busClean_or_faults s fs.length
  · obtain ⟨q, rfl⟩ := h.1 hc
    exact ⟨q, fs, fs.length, rfl⟩
  · obtain ⟨q, rfl⟩ := h.2 k p fs[k] (List.getElem?_eq_getElem hk) hf
    exact ⟨q, fs.take k ++ [(fs[k].1, fs[k].2.take p)], k + 1, by simp [framesEvents_append]⟩

/-! ### What a performed operation leaves -/

/-- `s` after an operation that put `es` on the trace in `n` frames, left the framebuffer at `m` and STATE at `p`, and
finished with `code`. -/
def ended (code : ResultCode) (p : PanelState) (m : List Host.Cell) (es : List Event) (n : Nat) (s : State) : State :=
  finish code (setPanel p (setFb m (sent es n s)))

theorem ended_finish (code : ResultCode) (s : State) : ended code s.panel s.fb [] 0 s = finish code s := by
  rw [ended, sent_nil]
  rfl

/-- STATE admits an INIT, or has admitted this one already (R109). -/
def initAdmitted (s : State) : Prop := s.panel = .uninit ∨ initAccepted s = true

/-- From its acceptance over the pulse and what is sent after it to its end, an INIT is one `ended`. -/
theorem finish_bringUp (code : ResultCode) (p : PanelState) (q : Seq) (es : List Event) (n : Nat) (s : State) :
    finish code (setPanel p (setSeq q (sent es n (setPhase .rom (resetPulse (acceptInit s)))))) =
      ended code p s.fb (pulseEvents ++ es) n s := by
  have htrace : s.trace ++ [.pin .rstN true] ++ [.pin .rstN false] ++ [.pin .rstN true] ++ es =
      s.trace ++ (pulseEvents ++ es) := by simp [pulseEvents]
  rw [ended, sent, sent, ← htrace]
  rfl

/-- An admitted INIT ends with READY and OK, or with UNINIT and BUS_FAULT (R111, R112). -/
theorem bringUp_ended (s : State) : ∃ code p es n, busEvents es ∧ bringUp s = ended code p s.fb es n s ∧
    (p = .ready ∧ code = .ok ∨ p = .uninit ∧ code = .busFault) := by
  obtain ⟨q, gs, n, hr⟩ := (walkRom_sends (romEntries s.cfg.initRom) 0 (setPhase .rom (resetPulse (acceptInit s)))).sent
  simp only [bringUp]
  split
  · refine ⟨.ok, .ready, _, n, ⟨gs, .inr rfl⟩, ?_, .inl ⟨rfl, rfl⟩⟩
    rw [hr, ← finish_bringUp .ok .ready q]
    rfl
  · refine ⟨.busFault, .uninit, _, n, ⟨gs, .inr rfl⟩, ?_, .inr ⟨rfl, rfl⟩⟩
    rw [hr, finish_bringUp]

/-- An accepted SHOW leaves STATE and the framebuffer (R117, R123). -/
theorem sendImage_ended (s : State) : ∃ code es n, busEvents es ∧ sendImage s = ended code s.panel s.fb es n s := by
  obtain ⟨q, gs, n, hr⟩ := (sendScreen_sends s).sent
  unfold sendImage
  split <;> rename_i u hu <;> simp only [hu] at hr <;> subst hr
  · exact ⟨.ok, _, n, ⟨gs, .inl rfl⟩, rfl⟩
  · exact ⟨.busFault, _, n, ⟨gs, .inl rfl⟩, rfl⟩

/-- So does every SHOW (R114). -/
theorem execShow_ended (s : State) :
    ∃ code es n, busEvents es ∧ execShow s = .next (ended code s.panel s.fb es n s) := by
  unfold execShow
  split
  · obtain ⟨code, es, n, hes, he⟩ := sendImage_ended s
    exact ⟨code, es, n, hes, by rw [he]⟩
  · exact ⟨.badState, [], 0, busEvents_nil, by rw [ended_finish]⟩
  · exact ⟨.badState, [], 0, busEvents_nil, by rw [ended_finish]⟩

/-- Everything an operation can do: it ends with events of the bus on the trace, a framebuffer as canonical as before, and
STATE as it was, but for an admitted INIT. -/
theorem exec_cases {i : Instr} (h : exec i s = .next t) :
    ∃ code p m es n, t = ended code p m es n s ∧ busEvents es ∧ (fbWf s.cfg s.fb = true → fbWf s.cfg m = true) ∧
      (i = .init ∧ initAdmitted s ∧ (p = .ready ∧ code = .ok ∨ p = .uninit ∧ code = .busFault) ∨
        ¬ (i = .init ∧ initAdmitted s) ∧ p = s.panel) := by
  by_cases hd : drawsOnly i = true
  · obtain ⟨m, he, hm⟩ := exec_drawsOnly hd s
    rw [he] at h
    cases h
    refine ⟨.ok, s.panel, m, [], 0, (ended_finish .ok (setFb m s)).symm, busEvents_nil, hm, .inr ⟨?_, rfl⟩⟩
    rintro ⟨rfl, -⟩
    cases hd
  · cases i with
    | setPixel | fillRect | fill | drawText => exact absurd rfl hd
    | init =>
      change execInit s = .next t at h
      by_cases ha : initAdmitted s
      · obtain ⟨code, p, es, n, hes, hb, hp⟩ := bringUp_ended s
        rw [execInit_admitted ha, hb] at h
        cases h
        exact ⟨code, p, s.fb, es, n, rfl, hes, id, .inl ⟨rfl, ha, hp⟩⟩
      · obtain ⟨hu, hacc⟩ := not_or.1 ha
        rw [execInit_refused hu (by simpa using hacc)] at h
        cases h
        exact ⟨.badState, s.panel, s.fb, [], 0, (ended_finish _ s).symm, busEvents_nil, id,
          .inr ⟨fun hi => ha hi.2, rfl⟩⟩
    | showPanel =>
      change execShow s = .next t at h
      obtain ⟨code, es, n, hes, he⟩ := execShow_ended s
      rw [he] at h
      cases h
      exact ⟨code, s.panel, s.fb, es, n, rfl, hes, id, .inr ⟨(by cases ·.1), rfl⟩⟩

/-! ### The invariant -/

/-- A reset block meets the invariant, under every admitted configuration (R37). -/
theorem inv_resetWith {p : Params} (hp : configOk p = true) (e : BusEnv) (is : List Input) (r : Option Word) :
    Inv (State.resetWith p e is r) where
  config := hp
  memory := rfl
  panel h := by cases h
  lines := rfl
  framed := rfl
  released := ⟨rfl, rfl, rfl⟩
  sequencer := rfl
  latch := rfl

/-- The reference configuration is admitted, whatever its open glyphs and its open ROM entries are (R8, R77, R108). -/
theorem configOk_reference : configOk Params.reference = true := by decide

/-- The invariant does not look at the host's side. -/
theorem Inv.hostSide (h : Inv s) (is : List Input) (v : Option Word) : Inv { s with inputs := is, hostRead := v } :=
  ⟨h.config, h.memory, h.panel, h.lines, h.framed, h.released, h.sequencer, h.latch⟩

/-- The acceptance of an INIT that waits for it (R109, R110). -/
theorem Inv.acceptInit (h : Inv s) (hw : initWaits s = true) : Inv (acceptInit s) := by
  obtain ⟨hbusy, hhdr, -⟩ := initWaits_iff.1 hw
  exact
    { config := h.config
      memory := h.memory
      panel := fun _ => ⟨hbusy, hhdr⟩
      lines := h.lines
      framed := h.framed
      released := h.released
      sequencer := by simp only [acceptInit_seq, h.sequencer]; rfl
      latch := h.latch }

/-- A word received while BUSY is 0 (R73). -/
theorem Inv.receive (h : Inv s) (hbusy : s.busy = false) (w : Word) : Inv (receive w s) := by
  have hfits : latchFits (latchWord w s.latch) :=
    latchFits_latchWord (by simpa only [hbusy, Bool.false_eq_true, if_false] using h.latch) w
  have hpanel : s.panel ≠ .initializing := fun hp => by simpa [hbusy] using (h.panel hp).1
  obtain ⟨hc, he⟩ | ⟨hc, he⟩ := receive_cases w s <;> rw [he]
  · exact { h with
      panel := fun hp => absurd hp hpanel
      sequencer := by simp [h.sequencer, hpanel]
      latch := hfits.whole hc }
  · exact { h with
      panel := fun hp => absurd hp hpanel
      sequencer := by simp [h.sequencer, hbusy]
      latch := by simpa [hbusy] using hfits.receiving hc }

/-- The end of an operation (R14, R31, R33). -/
theorem Inv.ended (h : Inv s) (hbusy : s.busy = true) {code : ResultCode} {p : PanelState} {m : List Host.Cell}
    {es : List Event} (hp : p ≠ .initializing) (hm : fbWf s.cfg m = true) (hes : busEvents es) (n : Nat) :
    Inv (ended code p m es n s) where
  config := h.config
  memory := hm
  panel hi := absurd hi hp
  lines := by simp [Machine.ended, h.lines]
  framed := by simp [Machine.ended, framing_append, h.framed, hes.framing]
  released := hes.released h.released
  sequencer := by simp [Machine.ended, hp, Seq.idle]
  latch := by
    obtain ⟨hcount, -⟩ : latchWhole s.latch := by simpa only [hbusy, if_true] using h.latch
    simp [Machine.ended, latchReceiving, hcount]

/-- While STATE is INITIALIZING the latch holds an INIT that has been accepted (R23). -/
theorem Inv.initializing (h : Inv s) (hp : s.panel = .initializing) :
    s.busy = true ∧ initAdmitted s ∧ decode s.latch.hdr s.latch.args = .ok .init := by
  obtain ⟨hbusy, hhdr⟩ := h.panel hp
  obtain ⟨-, hlen⟩ : latchWhole s.latch := by simpa only [hbusy, if_true] using h.latch
  refine ⟨hbusy, .inr (initAccepted_iff.2 ⟨hp, ?_⟩), ?_⟩
  · simp [h.sequencer, hp]
  · rw [hhdr] at hlen ⊢
    exact decode_initHeader hlen

/-- An operation performed keeps the invariant: an INIT, the only one STATE can be INITIALIZING for, leaves it. -/
theorem Inv.exec (h : Inv s) (hbusy : s.busy = true) {i : Instr} (hd : decode s.latch.hdr s.latch.args = .ok i)
    (he : exec i s = .next t) : Inv t := by
  obtain ⟨code, p, m, es, n, rfl, hes, hm, hp⟩ := exec_cases he
  refine h.ended hbusy ?_ (hm h.memory) hes n
  obtain ⟨-, -, ⟨rfl, -⟩ | ⟨rfl, -⟩⟩ | ⟨hna, rfl⟩ := hp
  · decide
  · decide
  · intro hi
    obtain ⟨-, ha, hd'⟩ := h.initializing hi
    rw [hd] at hd'
    cases hd'
    exact hna ⟨rfl, ha⟩

/-- An illegal packet keeps the invariant: it is no INIT. -/
theorem Inv.illegal (h : Inv s) (hbusy : s.busy = true) (hd : ∀ i, decode s.latch.hdr s.latch.args ≠ .ok i) :
    Inv (finish .illegal s) := by
  rw [← ended_finish]
  exact h.ended hbusy (fun hi => hd _ (h.initializing hi).2.2) h.memory busEvents_nil 0

end Sys2Proof.Machine

open Sys2Proof Sys2Proof.Machine

/-- Settles O47, by the kinds of step `step_cases` lists: each keeps the invariant. -/
theorem stepKeepsInvariant : Obligations.StepKeepsInvariant := by
  intro s t hs h
  obtain ⟨hc, ⟨rest, -, rfl⟩ | ⟨a, rest, -, hw, rfl⟩ | ⟨a, m, rest, -, ⟨v, rfl⟩ | ⟨hb, w, rfl⟩⟩ |
    ⟨hb, -, i, hd, he⟩ | ⟨hb, -, hd, rfl⟩ | ⟨-, -, rfl⟩⟩ := step_cases h
  · exact inv_resetWith hc s.bus rest s.hostRead
  · exact hs.acceptInit hw
  · exact hs.hostSide rest v
  · exact (hs.hostSide rest s.hostRead).receive hb w
  · exact hs.exec hb hd he
  · exact hs.illegal hb hd
  · exact hs

/-- Settles O50: only the end of an operation appends events, and only a block reset takes any away. -/
theorem traceOnlyGrows : Obligations.TraceOnlyGrows := by
  intro s t h
  obtain ⟨-, ⟨rest, hi, rfl⟩ | ⟨a, rest, -, -, rfl⟩ | ⟨a, m, rest, -, ⟨v, rfl⟩ | ⟨-, w, rfl⟩⟩ |
    ⟨-, -, i, -, he⟩ | ⟨-, -, -, rfl⟩ | ⟨-, -, rfl⟩⟩ := step_cases h
  · exact .inr ⟨rest, hi, rfl⟩
  · exact .inl ⟨[], by simp⟩
  · exact .inl ⟨[], by simp⟩
  · exact .inl ⟨[], by simp⟩
  · obtain ⟨code, p, m, es, n, rfl, -⟩ := exec_cases he
    exact .inl ⟨es, rfl⟩
  · exact .inl ⟨[], by simp⟩
  · exact .inl ⟨[], by simp⟩

/-- Settles O54: STATE is written by the acceptance of an INIT and by the end of an admitted one, and by no other step but
a block reset. -/
theorem panelStateTransitions : Obligations.PanelStateTransitions := by
  intro s t _ h hreset hne
  obtain ⟨-, ⟨rest, hi, -⟩ | ⟨a, rest, -, hw, rfl⟩ | ⟨a, m, rest, -, ⟨v, rfl⟩ | ⟨-, w, rfl⟩⟩ |
    ⟨hb, -, i, hd, he⟩ | ⟨-, -, -, rfl⟩ | ⟨-, -, rfl⟩⟩ := step_cases h
  · exact absurd hi (hreset rest)
  · obtain ⟨hb, hhdr, hp⟩ := initWaits_iff.1 hw
    exact ⟨hb, hhdr, .inl ⟨hp, rfl, hb, rfl, rfl⟩⟩
  · exact absurd rfl hne
  · exact absurd (receive_panel w _) hne
  · obtain ⟨code, p, m, es, n, rfl, -, -, ⟨rfl, ha, hp⟩ | ⟨-, rfl⟩⟩ := exec_cases he
    · refine ⟨hb, header_of_decode_init hd, .inr ?_⟩
      obtain hu | hi := ha
      · obtain ⟨rfl, rfl⟩ | ⟨rfl, -⟩ := hp
        · exact .inl ⟨hu, rfl, rfl, rfl⟩
        · exact absurd hu.symm hne
      · have hin := (initAccepted_iff.1 hi).1
        obtain ⟨rfl, rfl⟩ | ⟨rfl, rfl⟩ := hp
        · exact .inr (.inl ⟨hin, rfl, rfl, rfl⟩)
        · exact .inr (.inr ⟨hin, rfl, rfl, rfl⟩)
    · exact absurd rfl hne
  · exact absurd rfl hne
  · exact absurd rfl hne

/-- Settles O46, the reference configuration being an admitted one. -/
theorem resetMeetsInvariant : Obligations.ResetMeetsInvariant := inv_resetWith configOk_reference _ _ _

/-- Settles O17: the fields of `State.resetWith`, and an unlisted framebuffer byte reads as FB_RESET. -/
theorem resetValues : Obligations.ResetValues := fun _ _ _ _ =>
  ⟨rfl, rfl, rfl, statusWord_resetWith _ _ _ _, rfl, rfl, rfl, rfl, rfl, rfl, fun _ _ => rfl, rfl, rfl, rfl, rfl, rfl, rfl,
    rfl, rfl⟩

/-- Settles O12, by what each bit of the word is. -/
theorem statusWordLayout : Obligations.StatusWordLayout := by
  intro s
  refine ⟨?_, ?_, ?_, ?_, ?_⟩
  · trans panelBits s.panel
    · ext i hi
      rw [BitVec.getElem_extractLsb', Nat.zero_add, statusWord_getLsbD, if_pos hi, BitVec.getLsbD_eq_getElem]
    · rfl
  · exact statusWord_getLsbD s 2
  · exact statusWord_getLsbD s 3
  · trans resultBits s.result
    · ext i hi
      rw [BitVec.getElem_extractLsb', statusWord_getLsbD, if_neg (by omega), if_neg (by omega), if_neg (by omega),
        Nat.add_sub_cancel_left, BitVec.getLsbD_eq_getElem]
    · rfl
  · ext i hi
    rw [BitVec.getElem_extractLsb', statusWord_getLsbD, if_neg (by omega), if_neg (by omega), if_neg (by omega),
      BitVec.getLsbD_of_ge _ _ (by omega), BitVec.getElem_zero]
end

section
/-! PROOFS. The statements of spec/20_memory.md: where the pixels lie, what a host access does, and which steps write the
framebuffer. That an access lands, and whether an INIT's acceptance comes before it, is said once by `step_access`. -/

namespace Sys2Proof.Machine

variable {s t : State} {p : Params} {a : HostAccess} {m : Moment} {rest : List Input}

/-! ### The pixels of the framebuffer (R41) -/

theorem pixOff_even (p : Params) (i j : Nat) : pixOff p i j % 2 = 0 := Nat.mul_mod_left _ 2

/-- Pixels are laid out row by row: the one of index `k` is at column `k % W` of row `k / W`. -/
theorem pixOff_mod_div (p : Params) (k : Nat) : pixOff p (k % p.w) (k / p.w) = k * 2 := by
  rw [pixOff, Nat.div_add_mod']

/-- Every framebuffer byte belongs to a pixel of the panel. -/
theorem exists_pixOff {o : Nat} (ho : o < p.fbBytes) :
    ∃ i j : Nat, i < p.w ∧ j < p.h ∧ (o = pixOff p i j ∨ o = pixOff p i j + 1) := by
  have hk : o / 2 < p.w * p.h := Nat.div_lt_of_lt_mul (by rwa [Nat.mul_comm])
  have hw : 0 < p.w := Nat.pos_of_mul_pos_right (Nat.zero_lt_of_lt hk)
  refine ⟨o / 2 % p.w, o / 2 / p.w, Nat.mod_lt _ hw, Nat.div_lt_of_lt_mul hk, ?_⟩
  rw [pixOff_mod_div]
  omega

/-! ### Host accesses (R44, R46, R47) -/

theorem accessOk_eq_true {offset width : Nat} : accessOk offset width = true ↔ width = 16 ∧ offset % 2 = 0 := by
  simp only [accessOk, Bool.and_eq_true, beq_iff_eq]

theorem isCmdWrite_read (offset width : Nat) : isCmdWrite (.read offset width) = false := rfl

theorem isCmdWrite_write {offset : Nat} (h : offset ≠ 0) (width : Nat) (v : Word) :
    isCmdWrite (.write offset width v) = false := by
  simp [isCmdWrite, h]

theorem isCmdWrite_misshaped (h : shapeOk a = false) : isCmdWrite a = false := by
  cases a with
  | read offset width => rfl
  | write offset width v =>
    rw [shapeOk] at h
    rw [isCmdWrite, h, Bool.false_and]

theorem serve_read {offset width : Nat} (h : accessOk offset width = true) (s : State) :
    serve (.read offset width) s = .next { s with hostRead := some (readRegister offset s) } := if_pos h

theorem serve_write {offset width : Nat} (h : accessOk offset width = true) (v : Word) (s : State) :
    serve (.write offset width v) s = .next (writeRegister offset v s) := if_pos h

theorem serve_misshaped (h : shapeOk a = false) (s : State) : serve a s = .refused .hostAccessShape := by
  cases a with
  | read | write => exact if_neg (by simpa [shapeOk] using h)

/-- The head of the host's inputs lands in an idle block, and in a BUSY one where it need not wait. -/
theorem nextInput_of_inputs {i : Input} (hi : s.inputs = i :: rest) (hl : s.busy = true → landsWhileBusy i = true) :
    nextInput s = some (i, rest) := by
  have hland : (!s.busy || landsWhileBusy i) = true := by
    cases hb : s.busy with
    | false => rfl
    | true => exact hl hb
  simp only [nextInput, hi, hland, if_true]

theorem acceptedFirst_access_iff :
    acceptedFirst (.access a m) s = true ↔ m = .underWay ∧ shapeOk a = true ∧ initWaits s = true := by
  simp only [acceptedFirst, Bool.and_eq_true, beq_iff_eq, and_assoc]

/-- An access made at a moment of the operation in progress lands then, unless it is a `CMD` write; one made past the
acceptance of an INIT that waits for it finds that acceptance made first. -/
theorem step_access (hc : configOk s.cfg = true) (hi : s.inputs = .access a m :: rest)
    (hl : s.busy = true → m ≠ .idle ∧ isCmdWrite a = false) :
    step s = if acceptedFirst (.access a m) s then .next (acceptInit s) else serve a { s with inputs := rest } := by
  have hn : nextInput s = some (.access a m, rest) := nextInput_of_inputs hi fun hb => by
    obtain ⟨hm, hcmd⟩ := hl hb
    simp [landsWhileBusy, hm, hcmd]
  simp only [step, hc, if_true, advance, hn, applyInput]

/-- The access itself is the step where it waits for no acceptance. -/
theorem step_serve (hc : configOk s.cfg = true) (hi : s.inputs = .access a m :: rest)
    (hl : s.busy = true → m ≠ .idle ∧ isCmdWrite a = false) (hw : ¬ (m = .underWay ∧ initWaits s = true)) :
    step s = serve a { s with inputs := rest } := by
  rw [step_access hc hi hl, if_neg]
  rw [acceptedFirst_access_iff]
  exact fun ⟨hm, _, hinit⟩ => hw ⟨hm, hinit⟩

/-- The acceptance is the step where the access waits for it (R23, R109). -/
theorem step_acceptInit (hc : configOk s.cfg = true) (hi : s.inputs = .access a .underWay :: rest)
    (ha : shapeOk a = true) (hcmd : isCmdWrite a = false) (hw : initWaits s = true) : step s = .next (acceptInit s) := by
  rw [step_access hc hi fun _ => ⟨by decide, hcmd⟩, if_pos (acceptedFirst_access_iff.2 ⟨rfl, ha, hw⟩)]

/-- A misshaped access waits for no acceptance and is refused (R44). -/
theorem step_misshaped (hc : configOk s.cfg = true) (hi : s.inputs = .access a m :: rest)
    (hm : s.busy = true → m ≠ .idle) (ha : shapeOk a = false) : step s = .refused .hostAccessShape := by
  rw [step_access hc hi fun hb => ⟨hm hb, isCmdWrite_misshaped ha⟩, if_neg]
  · exact serve_misshaped ha _
  · simp [acceptedFirst_access_iff, ha]

/-! ### What leaves the framebuffer as it is (R40, R126) -/

@[simp] theorem receive_fb (w : Word) (s : State) : (receive w s).fb = s.fb := by
  obtain ⟨-, h⟩ | ⟨-, h⟩ := receive_cases w s <;> rw [h]

@[simp] theorem ended_fb (code : ResultCode) (q : PanelState) (fb : List Host.Cell) (es : List Event) (n : Nat)
    (s : State) : (ended code q fb es n s).fb = fb := rfl

theorem bringUp_fb (s : State) : (bringUp s).fb = s.fb := by
  obtain ⟨code, q, es, n, -, he, -⟩ := bringUp_ended s
  rw [he, ended_fb]

/-- INIT and SHOW do not write the framebuffer, whatever STATE is and whatever the bus answers. -/
theorem exec_fb_of_not_drawsOnly {i : Instr} (hd : drawsOnly i ≠ true) (h : exec i s = .next t) : t.fb = s.fb := by
  cases i with
  | setPixel | fillRect | fill | drawText => exact absurd rfl hd
  | init =>
    change execInit s = .next t at h
    by_cases ha : initAdmitted s
    · rw [execInit_admitted ha] at h
      cases h
      exact bringUp_fb s
    · obtain ⟨hu, hacc⟩ := not_or.1 ha
      rw [execInit_refused hu (by simpa using hacc)] at h
      cases h
      exact finish_fb .badState s
  | showPanel =>
    change execShow s = .next t at h
    obtain ⟨code, es, n, -, he⟩ := execShow_ended s
    rw [he] at h
    cases h
    exact ended_fb ..

end Sys2Proof.Machine

open Sys2Proof Sys2Proof.Machine

/-- Settles O27: byte `o` belongs to the pixel of index `o / 2`. -/
theorem pixelsTileTheFramebuffer : Obligations.PixelsTileTheFramebuffer := fun p =>
  ⟨fun i j hi hj => ⟨pixOff_even p i j, pixOff_bound hi hj⟩, fun _ _ _ _ hi hi' h => pixOff_inj hi hi' h,
    fun _ ho => exists_pixOff ho⟩

/-- Settles O52: of the kinds of step `step_cases` lists, only a block reset and a performed operation can write the
framebuffer, and an operation that writes it is one that draws. -/
theorem onlyDrawingWritesFramebuffer : Obligations.OnlyDrawingWritesFramebuffer := by
  intro s t h hne
  obtain ⟨-, ⟨rest, hi, -⟩ | ⟨a, rest, -, -, rfl⟩ | ⟨a, m, rest, -, ⟨v, rfl⟩ | ⟨-, w, rfl⟩⟩ |
    ⟨hb, hn, i, hd, he⟩ | ⟨-, -, -, rfl⟩ | ⟨-, -, rfl⟩⟩ := step_cases h
  · exact .inl ⟨rest, hi⟩
  · exact absurd (acceptInit_fb s) hne
  · exact absurd rfl hne
  · exact absurd (receive_fb w _) hne
  · exact .inr ⟨hb, hn, i, hd, by_contra fun hdraw => hne (exec_fb_of_not_drawsOnly hdraw he)⟩
  · exact absurd (finish_fb .illegal s) hne
  · exact absurd rfl hne

/-- Settles O13: the access is served, by `step_serve`, but where an INIT waits to be accepted first. -/
theorem hostAccessEffects : Obligations.HostAccessEffects := by
  intro s offset v m rest hc hoff hm waits
  have hok : accessOk offset 16 = true := accessOk_eq_true.2 ⟨rfl, hoff⟩
  have hwaits : waits ↔ m = .underWay ∧ initWaits s = true := and_congr_right fun _ => initWaits_iff.symm
  refine ⟨fun hi hw => ?_, fun hi h0 hw => ?_, fun hi hw => ?_, fun hi h0 hb => ?_⟩
  · rw [step_serve hc hi (fun hb => ⟨hm hb, isCmdWrite_read offset 16⟩) (hwaits.not.1 hw), serve_read hok]
    rfl
  · rw [step_serve hc hi (fun hb => ⟨hm hb, isCmdWrite_write h0 16 v⟩) (hwaits.not.1 hw), serve_write hok,
      writeRegister, if_neg h0]
  · obtain ⟨rfl, hinit⟩ := hwaits.1 hw
    obtain hi | ⟨hi, h0⟩ := hi
    · exact step_acceptInit hc hi hok (isCmdWrite_read offset 16) hinit
    · exact step_acceptInit hc hi hok (isCmdWrite_write h0 16 v) hinit
  · have hidle : ¬ (m = .underWay ∧ initWaits s = true) := fun ⟨_, hinit⟩ => by
      simp [(initWaits_iff.1 hinit).1] at hb
    rw [step_serve hc hi (by simp [hb]) hidle, serve_write hok, writeRegister, if_pos h0]

/-- Settles O14, by `step_misshaped`. -/
theorem misshapedAccessRefused : Obligations.MisshapedAccessRefused := by
  rintro s offset width v m rest hc hshape hm (hi | hi) <;>
  exact step_misshaped hc hi hm (accessOk_eq_false.2 hshape)
end

section
/-! PROOFS. The statements of spec/30_encoding.md: the packets of the operations, how a packet is received and performed,
and the two equalities of effect. What the decoder reads is said once by `decode_ok_iff` and `decodeArgs_ok_iff`; that a
packet is received word by word is one induction over its words, `steps_receive`. -/

namespace Sys2Proof

open Sys2Proof.Machine (sext16)

variable {hdr : Word} {args : List Word} {op : Opcode} {i j : Instr}

/-! ### What the decoder reads (R57, R60, R62) -/

/-- The argument words of each operation, `mirror` the `MIRROR` flag of a DRAW_TEXT (R60). -/
inductive OperandsRead (mirror : Bool) : List Word → Instr → Prop where
  | init : OperandsRead mirror [] .init
  | setPixel (x y c : Word) : OperandsRead mirror [x, y, c] (.setPixel (sext16 x) (sext16 y) c)
  | fillRect (x y w h c : Word) :
      OperandsRead mirror [x, y, w, h, c] (.fillRect (sext16 x) (sext16 y) (sext16 w) (sext16 h) c)
  | fill (c : Word) : OperandsRead mirror [c] (.fill c)
  | drawText (x y c sx sy n : Word) (chars : List Word) :
      OperandsRead mirror (x :: y :: c :: sx :: sy :: n :: chars)
        (.drawText mirror (sext16 x) (sext16 y) c (sext16 sx) (sext16 sy) chars)
  | showPanel : OperandsRead mirror [] .showPanel

/-- The operands of an opcode are read from argument words as R60 lists them, and from no others. -/
theorem decodeArgs_ok_iff :
    decodeArgs op hdr args = .ok i ↔ i.opcode = op ∧ OperandsRead ((flagsField hdr).getLsbD 0) args i := by
  constructor
  · intro h
    cases op with
    | init | setPixel | fillRect | fill | showPanel =>
      simp only [decodeArgs] at h
      split at h <;> cases h
      exact ⟨rfl, by constructor⟩
    | drawText =>
      simp only [decodeArgs, decodeText] at h
      split at h <;> cases h
      exact ⟨rfl, by constructor⟩
  · rintro ⟨rfl, h⟩
    cases h <;> rfl

/-- A packet is an operation where its length is its own, its opcode is in the map, no reserved flag is set and its
operands are read. -/
theorem decode_ok_iff : decode hdr args = .ok i ↔ packetLength hdr args = some (args.length + 1) ∧
    ∃ op, headerOpcode hdr = some op ∧ flagsField hdr &&& reservedFlags op = 0#8 ∧ decodeArgs op hdr args = .ok i := by
  unfold decode
  by_cases hlen : packetLength hdr args = some (args.length + 1)
  · cases ho : headerOpcode hdr with
    | none => simp [hlen]
    | some op => by_cases hf : flagsField hdr &&& reservedFlags op = 0#8 <;> simp [hlen, hf]
  · simp [hlen]

/-! ### From an operation to its packet and back -/

theorem packetLength_encode (h : i.wellFormed = true) :
    packetLength (encodeHeader i.opcode (encodeFlags i)) (encodeArgs i) = some ((encodeArgs i).length + 1) := by
  cases i with
  | init => exact Laws.PacketWords.init h
  | setPixel x y c => exact Laws.PacketWords.setPixel x y c h
  | fillRect x y w ht c => exact Laws.PacketWords.fillRect x y w ht c h
  | fill c => exact Laws.PacketWords.fill c h
  | drawText mirror x y c sx sy chars => exact Laws.PacketWords.drawText mirror x y c sx sy chars h
  | showPanel => exact Laws.PacketWords.showPanel h

/-- No operation is sent with a reserved flag (R56). -/
theorem encodeFlags_and_reservedFlags (i : Instr) : encodeFlags i &&& reservedFlags i.opcode = 0#8 := by
  cases i with
  | drawText mirror => cases mirror <;> simp [encodeFlags, Instr.opcode, reservedFlags]
  | init | setPixel | fillRect | fill | showPanel => simp [encodeFlags]

/-- The operands of a well-formed operation are read back from its argument words: each signed one fits its word. -/
theorem operandsRead_encodeArgs (h : i.wellFormed = true) :
    OperandsRead ((encodeFlags i).getLsbD 0) (encodeArgs i) i := by
  cases i with
  | init => exact .init
  | fill c => exact .fill c
  | showPanel => exact .showPanel
  | setPixel x y c =>
    simp only [Instr.wellFormed, Bool.and_eq_true] at h
    obtain ⟨hx, hy⟩ := h
    simpa only [encodeArgs, sext16_encodeSigned hx, sext16_encodeSigned hy] using
      OperandsRead.setPixel (encodeSigned x) (encodeSigned y) c
  | fillRect x y w ht c =>
    simp only [Instr.wellFormed, Bool.and_eq_true] at h
    obtain ⟨⟨⟨hx, hy⟩, hw⟩, hh⟩ := h
    simpa only [encodeArgs, sext16_encodeSigned hx, sext16_encodeSigned hy, sext16_encodeSigned hw,
      sext16_encodeSigned hh] using
      OperandsRead.fillRect (encodeSigned x) (encodeSigned y) (encodeSigned w) (encodeSigned ht) c
  | drawText mirror x y c sx sy chars =>
    simp only [Instr.wellFormed, Bool.and_eq_true] at h
    obtain ⟨⟨⟨⟨hx, hy⟩, hsx⟩, hsy⟩, -⟩ := h
    have hm : (encodeFlags (.drawText mirror x y c sx sy chars)).getLsbD 0 = mirror := by
      cases mirror <;> simp [encodeFlags]
    rw [hm]
    simpa only [encodeArgs, List.cons_append, List.nil_append, sext16_encodeSigned hx, sext16_encodeSigned hy,
      sext16_encodeSigned hsx, sext16_encodeSigned hsy] using
      OperandsRead.drawText (encodeSigned x) (encodeSigned y) c (encodeSigned sx) (encodeSigned sy)
        (BitVec.ofNat 16 chars.length) chars

/-- The packet of a well-formed operation decodes to it. -/
theorem decode_of_encode (h : i.wellFormed = true) (he : encode i = hdr :: args) : decode hdr args = .ok i := by
  obtain ⟨rfl, rfl⟩ := List.cons.inj he
  refine decode_ok_iff.2 ⟨packetLength_encode h, i.opcode, headerOpcode_encodeHeader _ _, ?_, ?_⟩
  · rw [flagsField_encodeHeader, encodeFlags_and_reservedFlags]
  · rw [decodeArgs_ok_iff, flagsField_encodeHeader]
    exact ⟨rfl, operandsRead_encodeArgs h⟩

/-- Operations of different opcodes have different packets. -/
theorem encode_ne_of_opcode_ne (h : i.opcode ≠ j.opcode) : encode i ≠ encode j := by
  intro he
  have hhdr := congrArg headerOpcode (List.cons.inj he).1
  rw [headerOpcode_encodeHeader, headerOpcode_encodeHeader, Option.some.injEq] at hhdr
  exact h hhdr

/-! ### From a packet to its operation and back -/

/-- A word is its bits from 1 up and its bit 0. -/
theorem eq_clear_or_bit0 {w : Nat} (v : BitVec w) :
    v = (v &&& ~~~1#w) ||| (BitVec.ofBool (v.getLsbD 0)).setWidth w := by
  rw [← BitVec.and_one_eq_setWidth_ofBool_getLsbD, ← BitVec.and_or_distrib_left]
  simp

/-- The flags of a packet with no reserved flag set are those its operation is sent with. -/
theorem OperandsRead.encodeFlags_eq {flags : Byte} (hf : flags &&& reservedFlags i.opcode = 0#8)
    (h : OperandsRead (flags.getLsbD 0) args i) : encodeFlags i = flags := by
  cases h with
  | drawText x y c sx sy n chars =>
    have hbit := eq_clear_or_bit0 flags
    rw [show ~~~1#8 = reservedFlags .drawText from rfl, show flags &&& reservedFlags .drawText = 0#8 from hf,
      BitVec.zero_or] at hbit
    rw [encodeFlags]
    generalize flags.getLsbD 0 = mirror at hbit ⊢
    cases mirror <;> exact hbit.symm
  | init | setPixel | fillRect | fill | showPanel =>
    exact (BitVec.and_allOnes.symm.trans hf).symm

/-- What is read is well formed, and its argument words are those read: the count of a DRAW_TEXT is the one its packet's
length is counted by (R59). -/
theorem OperandsRead.wellFormed_encodeArgs {mirror : Bool} (ho : headerOpcode hdr = some i.opcode)
    (hlen : packetLength hdr args = some (args.length + 1)) (h : OperandsRead mirror args i) :
    i.wellFormed = true ∧ encodeArgs i = args := by
  cases h with
  | drawText x y c sx sy n chars =>
    have hn : chars.length = n.toNat := by
      rw [packetLength_drawText ho] at hlen
      simp at hlen
      omega
    have hlt := n.isLt
    have hcount : inCount16 n.toNat = true := inCount16_iff.2 (by omega)
    simp [Instr.wellFormed, encodeArgs, hcount, hn]
  | init | setPixel | fillRect | fill | showPanel => simp [Instr.wellFormed, encodeArgs]

theorem wellFormed_encode_of_decode (h : decode hdr args = .ok i) : i.wellFormed = true ∧ encode i = hdr :: args := by
  obtain ⟨hlen, op, ho, hf, hargs⟩ := decode_ok_iff.1 h
  obtain ⟨rfl, hread⟩ := decodeArgs_ok_iff.1 hargs
  obtain ⟨hwf, henc⟩ := hread.wellFormed_encodeArgs ho hlen
  exact ⟨hwf, by rw [encode, henc, hread.encodeFlags_eq hf, encodeHeader_headerOpcode ho]⟩

/-- A header starts a legal packet where it is the header of a well-formed operation. -/
theorem exists_decode_iff : (∃ args i, decode hdr args = .ok i) ↔
    ∃ i : Instr, i.wellFormed = true ∧ hdr = encodeHeader i.opcode (encodeFlags i) := by
  constructor
  · rintro ⟨args, i, h⟩
    obtain ⟨hwf, he⟩ := wellFormed_encode_of_decode h
    exact ⟨i, hwf, (List.cons.inj he).1.symm⟩
  · rintro ⟨i, hwf, rfl⟩
    exact ⟨encodeArgs i, i, decode_of_encode hwf rfl⟩

/-- The headers of a DRAW_TEXT in opcode_table.json's row: every bit but `MIRROR` is fixed (R61). -/
theorem drawText_row_iff :
    hdr &&& 0xFFFE#16 = 0x2000#16 ↔ ∃ mirror : Bool, hdr = if mirror then 0x2001#16 else 0x2000#16 := by
  constructor
  · intro h
    have hbit := eq_clear_or_bit0 hdr
    rw [show ~~~1#16 = 0xFFFE#16 from rfl, h] at hbit
    generalize hdr.getLsbD 0 = mirror at hbit
    exact ⟨mirror, by cases mirror <;> exact hbit⟩
  · rintro ⟨mirror, rfl⟩
    cases mirror <;> rfl

/-! ### The opcode of a header (R61, R63) -/

theorem headerOpcode_of_opcodeField (h : opcodeField hdr = opcodeCode op) : headerOpcode hdr = some op := by
  rw [headerOpcode, h, opcodeOfByte_opcodeCode]

/-- A byte that is no row's code is no opcode (R63). -/
theorem headerOpcode_eq_none (h : opcodeField hdr ∉ [0x01#8, 0x10#8, 0x11#8, 0x12#8, 0x20#8, 0x30#8]) :
    headerOpcode hdr = none := by
  refine Option.eq_none_iff_forall_ne_some.2 fun op ho => h ?_
  rw [← opcodeCode_of_opcodeOfByte ho]
  cases op <;> decide

end Sys2Proof

namespace Sys2Proof.Machine

variable {s t : State} {hdr : Word} {args : List Word} {rest : List Input} {i : Instr}

/-! ### Receiving a packet (R55, R73) -/

/-- A host's write of a word to `CMD`. -/
abbrev cmdWrite (e : Word × Moment) : Input := .access (.write 0 16 e.1) e.2

/-- A word written to `CMD` of an idle block is received. -/
theorem step_cmdWrite (hc : configOk s.cfg = true) (hb : s.busy = false) {e : Word × Moment}
    (hi : s.inputs = cmdWrite e :: rest) : step s = .next (receive e.1 { s with inputs := rest }) := by
  have hidle : initWaits s ≠ true := fun h => by simp [(initWaits_iff.1 h).1] at hb
  rw [step_serve hc hi (by simp [hb]) fun h => hidle h.2, serve_write (accessOk_eq_true.2 ⟨rfl, rfl⟩), writeRegister,
    if_pos rfl]

/-- A packet's last word makes it accepted. -/
theorem receive_last {w : Word} (hl : latchWord w s.latch = { hdr := hdr, args := args, rxcount := args.length + 1 })
    (hlen : packetLength hdr args = some (args.length + 1)) (rest : List Input) :
    receive w { s with inputs := rest } = { s with
      inputs := rest
      busy := true
      latch := { hdr := hdr, args := args, rxcount := 0 }
      seq := { s.seq with op := headerOpcode hdr } } := by
  obtain ⟨-, hr⟩ | ⟨hn, -⟩ := receive_cases w { s with inputs := rest }
  · simp only [hr, hl]
  · exact absurd (by simpa only [latchComplete, hl] using hlen) hn

/-- A word that others of its packet follow is latched and no more. -/
theorem receive_partial {w : Word} {more : List Word} {n : Nat}
    (hl : latchWord w s.latch = { hdr := hdr, args := args, rxcount := args.length + 1 })
    (hlen : packetLength hdr (args ++ more) = some n) (hn : args.length + 1 < n) (rest : List Input) :
    receive w { s with inputs := rest } = { s with
      inputs := rest
      latch := { hdr := hdr, args := args, rxcount := args.length + 1 } } := by
  obtain ⟨hcompl, -⟩ | ⟨-, hr⟩ := receive_cases w { s with inputs := rest }
  · simp only [latchComplete, hl] at hcompl
    rw [packetLength_append hcompl, Option.some.injEq] at hlen
    omega
  · simp only [hr, hl]

theorem steps_succ (h : step s = .next t) (n : Nat) : steps (n + 1) s = steps n t := by rw [steps, h]

/-- The words of a packet still missing are received one by one, from the one that leaves `args` in the latch. -/
theorem steps_receive {e : Word × Moment} {more : List (Word × Moment)}
    (hc : configOk s.cfg = true) (hb : s.busy = false)
    (hl : latchWord e.1 s.latch = { hdr := hdr, args := args, rxcount := args.length + 1 })
    (hlen : packetLength hdr (args ++ more.map Prod.fst) = some (args.length + more.length + 1))
    (hi : s.inputs = cmdWrite e :: (more.map cmdWrite ++ rest)) :
    steps (more.length + 1) s = .next
      { s with
        inputs := rest
        busy := true
        latch := { hdr := hdr, args := args ++ more.map Prod.fst, rxcount := 0 }
        seq := { s.seq with op := headerOpcode hdr } } := by
  induction more generalizing s e args with
  | nil =>
    simp only [List.map_nil, List.append_nil] at hlen ⊢
    rw [steps_succ (step_cmdWrite hc hb hi), receive_last hl hlen]
    rfl
  | cons e' more ih =>
    have hl' : latchWord e'.1 { hdr := hdr, args := args, rxcount := args.length + 1 } =
        { hdr := hdr, args := args ++ [e'.1], rxcount := (args ++ [e'.1]).length + 1 } := by simp [latchWord]
    have hassoc : args ++ (e' :: more).map Prod.fst = args ++ [e'.1] ++ more.map Prod.fst := by simp
    have hcount : args.length + (e' :: more).length + 1 = (args ++ [e'.1]).length + more.length + 1 := by simp; omega
    rw [List.length_cons, steps_succ (step_cmdWrite hc hb hi), receive_partial hl hlen (by simp), hassoc]
    rw [hassoc, hcount] at hlen
    exact ih (s := { s with
      inputs := (e' :: more).map cmdWrite ++ rest
      latch := { hdr := hdr, args := args, rxcount := args.length + 1 } }) hc hb hl' hlen rfl

/-! ### Performing the packet of the latch (R24, R73) -/

/-- While BUSY is 1 and no input lands, the sequencer performs the packet. -/
theorem step_perform (hc : configOk s.cfg = true) (hb : s.busy = true) (hn : noInput s) : step s = perform s := by
  rw [step, if_pos hc, advance, show nextInput s = none from hn, if_pos hb]

theorem perform_of_decode (hd : decode s.latch.hdr s.latch.args = .ok i) : perform s = exec i s := by
  simp only [perform, hd]

/-- After `loadPacket` no input lands: those that would are gone (log 9). -/
theorem noInput_loadPacket (hdr : Word) (args : List Word) (s : State) : noInput (loadPacket hdr args s) := by
  unfold noInput nextInput
  split
  · rfl
  · rename_i i rest hi
    have hhead : landsWhileBusy i = false := by
      simpa [show s.inputs.dropWhile landsWhileBusy = i :: rest from hi] using
        List.head?_dropWhile_not landsWhileBusy s.inputs
    simp [loadPacket, hhead]

/-- The next step after `loadPacket` performs the packet (log 8). -/
theorem step_loadPacket (hc : configOk s.cfg = true) (hd : decode hdr args = .ok i) :
    step (loadPacket hdr args s) = exec i (loadPacket hdr args s) := by
  rw [step_perform (s := loadPacket hdr args s) hc rfl (noInput_loadPacket hdr args s)]
  exact perform_of_decode hd

theorem decode_of_decodeTableWord {nbits w : Nat} (h : decodeTableWord nbits w = some i) :
    decode (tablePacket nbits w).1 (tablePacket nbits w).2 = .ok i := by
  unfold decodeTableWord at h
  split at h <;> cases h
  assumption

/-! ### Rectangles that are a pixel or the whole panel (R70) -/

variable {p : Params} {c : Color} {m : List Host.Cell}

/-- A loop over `a * b` numbers, row by row of `a`. -/
theorem forRange_rows (f : Nat → List Host.Cell → List Host.Cell) (a b : Nat) (m : List Host.Cell) :
    forRange 0 (a * b) f m = forRange 0 b (fun j => forRange 0 a fun i => f (j * a + i)) m := by
  induction b with
  | zero => rfl
  | succ b ih =>
    have hrow : ∀ m, forRange (a * b) (a * (b + 1)) f m = forRange 0 a (fun i => f (b * a + i)) m := fun m => by
      have h := forRange_shift (f := f) (g := fun i => f (b * a + i)) (lo := 0) (hi := a) (d := a * b)
        (fun k => by rw [Nat.add_comm, Nat.mul_comm]) m
      rwa [Nat.zero_add, show a + a * b = a * (b + 1) by ring] at h
    rw [forRange_append (Nat.zero_le _) (Nat.mul_le_mul_left a (Nat.le_succ b)), ih, hrow,
      forRange_append (Nat.zero_le b) (Nat.le_succ b), forRange_one]

theorem clipLo_of_nonpos {v : Int} (h : v ≤ 0) : clipLo v = 0 := by
  rw [clipLo]
  omega

theorem clipLo_of_nonneg {v : Int} (h : 0 ≤ v) : clipLo v = v.toNat := by rw [clipLo, max_eq_left h]

/-- An interval that reaches the panel's edge ends there. -/
theorem clipHi_of_le {v len : Int} {n : Nat} (h : (n : Int) ≤ v + len) : clipHi v len n = n := by
  rw [clipHi, min_eq_right h, Int.toNat_natCast]

/-- An interval of one coordinate inside the panel ends after it. -/
theorem clipHi_one {v : Int} {n : Nat} (h0 : 0 ≤ v) (hn : v < n) : clipHi v 1 n = v.toNat + 1 := by
  rw [clipHi]
  omega

/-- A rectangle that covers the panel is FILL (R70, R98). -/
theorem fillRectClip_covering {x y w h : Int} (hx : x ≤ 0) (hy : y ≤ 0) (hw : (p.w : Int) ≤ x + w)
    (hh : (p.h : Int) ≤ y + h) : fillRectClip p x y w h c m = fillAll p c m := by
  rw [fillRectClip, fillAll, clipLo_of_nonpos hx, clipLo_of_nonpos hy, clipHi_of_le hw, clipHi_of_le hh, forRange_rows]
  refine forRange_congr (fun j _ hj => funext fun m => forRange_congr (fun i _ hi => funext fun m => ?_) m) m
  have hb : inBounds p i j = true := inBounds_iff.2 (by omega)
  rw [plotPixel, if_pos hb, pixOff, Int.toNat_natCast, Int.toNat_natCast, Nat.mul_comm]

/-- A rectangle of one pixel is that pixel (R70). -/
theorem fillRectClip_pixel (x y : Int) : fillRectClip p x y 1 1 c m = plotPixel p x y c m := by
  unfold fillRectClip
  by_cases hb : inBounds p x y = true
  · obtain ⟨hx, hxw, hy, hyh⟩ := inBounds_iff.1 hb
    rw [clipLo_of_nonneg hx, clipLo_of_nonneg hy, clipHi_one hx hxw, clipHi_one hy hyh, forRange_one, forRange_one,
      Int.toNat_of_nonneg hx, Int.toNat_of_nonneg hy]
  · rw [plotPixel, if_neg hb]
    rw [inBounds_iff] at hb
    refine forRange_id (fun j h1 h2 => funext fun m => forRange_id (fun i h3 h4 => absurd ?_ hb) m) m
    simp only [clipLo, clipHi] at h1 h2 h3 h4
    omega

end Sys2Proof.Machine

open Sys2Proof Sys2Proof.Machine

/-- Settles O2: the length, the flags and each operand are read back, by `decode_of_encode`. -/
theorem decodeEncodeRoundTrip : Obligations.DecodeEncodeRoundTrip := fun _ h => decode_of_encode h rfl

/-- Settles O3: the header is its opcode and flags, and each argument word the encoding of what is read from it. -/
theorem decodedPacketIsItsEncoding : Obligations.DecodedPacketIsItsEncoding := fun _ _ _ h =>
  wellFormed_encode_of_decode h

/-- Settles O4: the headers of the well-formed operations are the rows of the table. -/
theorem headersOfTheTable : Obligations.HeadersOfTheTable := by
  intro hdr
  rw [exists_decode_iff, drawText_row_iff]
  constructor
  · rintro ⟨i, -, rfl⟩
    cases i with
    | init => exact .inl (show encodeHeader .init 0x00#8 = _ from rfl)
    | setPixel => exact .inr (.inl (show encodeHeader .setPixel 0x00#8 = _ from rfl))
    | fillRect => exact .inr (.inr (.inl (show encodeHeader .fillRect 0x00#8 = _ from rfl)))
    | fill => exact .inr (.inr (.inr (.inl (show encodeHeader .fill 0x00#8 = _ from rfl))))
    | drawText mirror =>
      refine .inr (.inr (.inr (.inr (.inl ⟨mirror, ?_⟩))))
      change encodeHeader .drawText (if mirror then 0x01#8 else 0x00#8) = _
      cases mirror <;> rfl
    | showPanel => exact .inr (.inr (.inr (.inr (.inr (show encodeHeader .showPanel 0x00#8 = _ from rfl)))))
  · rintro (rfl | rfl | rfl | rfl | ⟨mirror, rfl⟩ | rfl)
    · exact ⟨.init, rfl, rfl⟩
    · exact ⟨.setPixel 0 0 0#16, rfl, rfl⟩
    · exact ⟨.fillRect 0 0 0 0 0#16, rfl, rfl⟩
    · exact ⟨.fill 0#16, rfl, rfl⟩
    · exact ⟨.drawText mirror 0 0 0#16 0 0 [], rfl, by cases mirror <;> rfl⟩
    · exact ⟨.showPanel, rfl, rfl⟩

/-- Settles O6: the header comes first, and `steps_receive` receives the arguments. -/
theorem packetReceivedWordByWord : Obligations.PacketReceivedWordByWord := by
  intro s hdr args ws rest hc hb hrx hargs hlen hws hi
  obtain ⟨⟨v, m⟩, more, rfl⟩ : ∃ e more, ws = e :: more := List.exists_cons_of_ne_nil fun h => by simp [h] at hws
  obtain ⟨rfl, rfl⟩ := List.cons.inj hws
  have hheader : latchWord v s.latch = { hdr := v, args := [], rxcount := 1 } := by simp [latchWord, hrx, hargs]
  rw [List.length_map] at hlen ⊢
  exact steps_receive (args := []) hc hb hheader (by simpa [Nat.add_comm] using hlen) hi

/-- Settles O23: FILL is the rectangle that covers the panel, and SET_PIXEL that of one pixel. -/
theorem equalEffects : Obligations.EqualEffects := by
  refine ⟨fun s c => ?_, fun s x y c => ?_, fun x y w h c c' => ⟨?_, ?_⟩⟩
  · rw [exec, exec, execFill, execFillRect, fillRectClip_covering] <;> omega
  · rw [exec, exec, execSetPixel, execFillRect, fillRectClip_pixel]
  · exact encode_ne_of_opcode_ne fun h => by cases h
  · exact encode_ne_of_opcode_ne fun h => by cases h

/-- Settles O1: the encodings are computed, and each decodes to its operation by `decode_of_encode`. -/
theorem workedEncodings : Obligations.WorkedEncodings := by
  have hpixel : encode (.setPixel 3 (-1) 0xFFFF#16) = [0x1000#16, 0x0003#16, 0xFFFF#16, 0xFFFF#16] := by decide
  have htext : encode (.drawText true 10 20 0x07E0#16 6 10 [0x31#16, 0x32#16, 0x3A#16, 0x33#16, 0x30#16]) =
      [0x2001#16, 0x000A#16, 0x0014#16, 0x07E0#16, 0x0006#16, 0x000A#16, 0x0005#16,
        0x0031#16, 0x0032#16, 0x003A#16, 0x0033#16, 0x0030#16] := by decide
  have hshow : encode .showPanel = [0x3000#16] := by decide
  exact ⟨decode_of_encode (by decide) hpixel, hpixel, decode_of_encode (by decide) htext, htext,
    decode_of_encode (by decide) hshow, hshow⟩

/-- Settles O5: the byte gives the opcode, and the opcode its length. -/
theorem packetLengths : Obligations.PacketLengths := by
  intro hdr args
  have hfixed : ∀ op, op ≠ .drawText → opcodeField hdr = opcodeCode op →
      packetLength hdr args = some (opcodeLength op 0) := fun op hop h =>
    packetLength_fixed (headerOpcode_of_opcodeField h) hop args
  have htext : opcodeField hdr = 0x20#8 → headerOpcode hdr = some .drawText := fun h =>
    headerOpcode_of_opcodeField (op := .drawText) h
  exact ⟨hfixed .init (by decide), hfixed .setPixel (by decide), hfixed .fillRect (by decide), hfixed .fill (by decide),
    fun h n hn => by rw [packetLength_drawText (htext h), hn, Option.map_some],
    fun h hshort => (packetLength_drawText_eq_none (htext h)).2 hshort,
    hfixed .showPanel (by decide), fun h => packetLength_unknown (headerOpcode_eq_none h) args⟩

/-- Settles O7: the sequencer performs the latch, and `withFetchWord` leaves no input that lands before it. -/
theorem stepRunsDecodedOperation : Obligations.StepRunsDecodedOperation := by
  refine ⟨fun s i hc hb hn hd => ?_, fun s nbits w i hc hw => ?_⟩
  · rw [step_perform hc hb hn, perform_of_decode hd]
  · exact step_loadPacket hc (decode_of_decodeTableWord hw)
end

section
/-! PROOFS. The statements of spec/40_rasterizer.md: which ROMs are refused, the glyph lookup, and what DRAW_TEXT draws. A
string is drawn character by character, and `drawChars_rastered` says the pixels it covers and where the pen is then. -/

namespace Sys2Proof.Machine

variable {p : Params} {s s' : State} {t : TextStyle} {c : Color} {ch : Word} {g : GlyphRows} {m m' : List Host.Cell}
  {A : Int → Int → Prop}

/-! ### The ROMs (R75, R76, R77, R108) -/

theorem mem_charset_iff : ch ∈ charset ↔ ch = 0x2F#16 ∨ (0x30#16 ≤ ch ∧ ch ≤ 0x39#16) ∨ ch = 0x3A#16 := by
  simp only [charset, List.mem_cons, List.not_mem_nil, or_false]
  bv_omega

theorem configOk_iff : configOk p = true ↔ sizeOk p = true ∧ glyphRomOk p = true ∧ initRomOk p = true := by
  simp only [configOk, Bool.and_eq_true, and_assoc]

/-- R77's conditions, as the configuration check decides them. -/
theorem glyphRomOk_iff : glyphRomOk p = true ↔
    (∀ ch ∈ charset, (p.glyphRom.filter fun e => e.1 == ch).length = 1) ∧ (∀ e ∈ p.glyphRom, e.1 ∈ charset) ∧
      glyphLookup p 0x38#16 = some glyphEight := by
  simp only [glyphRomOk, Bool.and_eq_true, List.all_eq_true, beq_iff_eq, List.contains_iff_mem, and_assoc]

/-- R108's conditions that are not in the types, as the configuration check decides them. -/
theorem initRomOk_iff : initRomOk p = true ↔
    p.initRom.exitSleep.cmd = p.cmds.slpout ∧ p.initRom.exitSleep.data = [] ∧
      p.initRom.displayOn.cmd = p.cmds.dispon ∧ p.initRom.displayOn.data = [] := by
  simp only [initRomOk, Bool.and_eq_true, beq_iff_eq, List.isEmpty_iff, and_assoc]

theorem glyphLookup_of_notMem (h : ch ∉ charset) : glyphLookup p ch = none := by
  rw [glyphLookup, if_neg (by simpa using h)]

theorem mem_charset_of_glyphLookup (h : glyphLookup p ch = some g) : ch ∈ charset :=
  by_contra fun hch => by simp [glyphLookup_of_notMem hch] at h

/-- The lookup of a supported code gives the first of the code's entries. -/
theorem glyphLookup_of_mem (h : ch ∈ charset) :
    glyphLookup p ch = ((p.glyphRom.filter fun e => e.1 == ch).head?).map Prod.snd := by
  rw [glyphLookup, if_pos (by simpa using h), List.head?_filter]

theorem glyphLookup_isSome_iff (hp : glyphRomOk p = true) : (glyphLookup p ch).isSome = true ↔ ch ∈ charset := by
  constructor
  · intro h
    obtain ⟨g, hg⟩ := Option.isSome_iff_exists.1 h
    exact mem_charset_of_glyphLookup hg
  · intro hch
    obtain ⟨hone, -, -⟩ := glyphRomOk_iff.1 hp
    obtain ⟨e, he⟩ := List.length_eq_one_iff.1 (hone ch hch)
    simp [glyphLookup_of_mem hch, he]

/-- The lookup gives the code's one entry of the ROM. -/
theorem glyphLookup_eq_some_iff (hp : glyphRomOk p = true) : glyphLookup p ch = some g ↔ (ch, g) ∈ p.glyphRom := by
  obtain ⟨hone, hclosed, -⟩ := glyphRomOk_iff.1 hp
  by_cases hch : ch ∈ charset
  · obtain ⟨⟨code, rows⟩, he⟩ := List.length_eq_one_iff.1 (hone ch hch)
    have hin : (code, rows) ∈ p.glyphRom.filter fun e => e.1 == ch := by simp [he]
    have hcode : code = ch := beq_iff_eq.1 (List.mem_filter.1 hin).2
    have hmem : (ch, g) ∈ p.glyphRom ↔ (ch, g) ∈ p.glyphRom.filter fun e => e.1 == ch := by simp [List.mem_filter]
    rw [hmem, glyphLookup_of_mem hch, he]
    simp [hcode, eq_comm]
  · rw [glyphLookup_of_notMem hch]
    exact iff_of_false (by simp) fun h => hch (hclosed _ h)

/-! ### The pixels a string covers (R79 to R82) -/

theorem destColumn_cast (mirror : Bool) {col : Nat} (h : col < 8) :
    (destColumn mirror col : Int) = if mirror then 7 - (col : Int) else col := by
  cases mirror with
  | false => rfl
  | true =>
    change ((7 - col : Nat) : Int) = 7 - (col : Int)
    omega

/-- The pixels of one character whose cell starts at `pen`: none where the code is unsupported. -/
def inChar (p : Params) (t : TextStyle) (ch : Word) (pen i j : Int) : Prop :=
  ∃ g row col, glyphLookup p ch = some g ∧ row < 8 ∧ col < 8 ∧ inCell p t g pen row col i j

/-- `inText` says character by character what a string covers, the cell of each at its own pen position. -/
theorem inText_iff_inChar (t : TextStyle) {x i j : Int} {chars : List Word} :
    inText p t.mirror x t.y t.sx t.sy chars i j ↔
      ∃ (k : Nat) (ch : Word), chars[k]? = some ch ∧ inChar p t ch (x + 9 * t.sx * k) i j := by
  constructor
  · rintro ⟨k, ch, g, row, col, hk, hg, hrow, hcol, hbit, hrect⟩
    exact ⟨k, ch, hk, g, row, col, hg, hrow, hcol, hbit, by rwa [destColumn_cast t.mirror hcol]⟩
  · rintro ⟨k, ch, hk, g, row, col, hg, hrow, hcol, hbit, hrect⟩
    exact ⟨k, ch, g, row, col, hk, hg, hrow, hcol, hbit, by rwa [← destColumn_cast t.mirror hcol]⟩

theorem not_inText_nil (t : TextStyle) (x i j : Int) : ¬ inText p t.mirror x t.y t.sx t.sy [] i j := by
  simp [inText_iff_inChar]

theorem inText_cons (t : TextStyle) {x i j : Int} {chars : List Word} :
    inText p t.mirror x t.y t.sx t.sy (ch :: chars) i j ↔
      inChar p t ch x i j ∨ inText p t.mirror (x + 9 * t.sx) t.y t.sx t.sy chars i j := by
  have hpen : ∀ k : Nat, x + 9 * t.sx * ((k + 1 : Nat) : Int) = x + 9 * t.sx + 9 * t.sx * k := fun k => by
    push_cast; ring
  simp only [inText_iff_inChar]
  constructor
  · rintro ⟨_ | k, ch', hk, h⟩
    · obtain rfl : ch = ch' := by simpa using hk
      exact .inl (by simpa using h)
    · exact .inr ⟨k, ch', hk, by rwa [← hpen k]⟩
  · rintro (h | ⟨k, ch', hk, h⟩)
    · exact ⟨0, ch, rfl, by simpa using h⟩
    · exact ⟨k + 1, ch', hk, by rwa [hpen k]⟩

/-- A pixel lies in the mirrored character where its mirror image about the centre of the 8 columns lies in the unmirrored
one (R81): both lie in the block of the same set bit. -/
theorem inText_mirror {x y sx sy i i' j : Int} (h : i + i' = 2 * x + 8 * sx - 1) :
    inText p true x y sx sy [ch] i j ↔ inText p false x y sx sy [ch] i' j := by
  have hblock : ∀ col y' : Int, inRect (x + (7 - col) * sx) y' sx sy i j ↔ inRect (x + col * sx) y' sx sy i' j := by
    intro col y'
    rw [inRect, inRect, show (7 - col) * sx = 7 * sx - col * sx by ring]
    omega
  have hsingle : ∀ k : Nat, ∀ ch', [ch][k]? = some ch' → x + 9 * sx * (k : Int) = x := by
    intro k ch' hk
    obtain rfl : k = 0 := by simpa using (List.getElem?_eq_some_iff.1 hk).1
    simp
  refine exists_congr fun k => exists_congr fun ch' => exists_congr fun g => exists_congr fun row =>
    exists_congr fun col => and_congr_right fun hk => ?_
  simp only [hsingle k ch' hk, if_true, Bool.false_eq_true, if_false, hblock]

/-! ### What drawing a string does -/

/-- Writing the registers before a drawing adds nothing to it, for `Rastered` leaves them free. -/
theorem Rastered.registersBefore {r : Raster} (h : Rastered A c { s with raster := r } s') : Rastered A c s s' := h

/-- Writing the registers after a drawing adds nothing to it. -/
theorem Rastered.registersAfter (h : Rastered A c s s') (r : Raster) : Rastered A c s { s' with raster := r } := by
  obtain ⟨⟨m, r', rfl⟩, hdraws⟩ := h
  exact ⟨⟨m, r, rfl⟩, hdraws⟩

theorem drawChar_of_none (t : TextStyle) (h : glyphLookup s.cfg ch = none) : drawChar t ch s = advancePen t.sx s := by
  rw [drawChar, h]

theorem drawChar_of_some (t : TextStyle) (h : glyphLookup s.cfg ch = some g) :
    drawChar t ch s = advancePen t.sx (drawGlyph t g s) := by
  rw [drawChar, h]

/-- One character draws the pixels of its cell and advances the pen, supported or not (R79, R83). -/
theorem drawChar_rastered (t : TextStyle) (ch : Word) (s : State) :
    Rastered (inChar s.cfg t ch s.raster.penX) t.color s (drawChar t ch s) ∧
      (drawChar t ch s).raster.penX = s.raster.penX + 9 * t.sx := by
  cases hg : glyphLookup s.cfg ch with
  | none =>
    rw [drawChar_of_none t hg]
    exact ⟨rastered_registers _ fun i j _ _ => by simp [inChar, hg], rfl⟩
  | some g =>
    rw [drawChar_of_some t hg]
    obtain ⟨hglyph, hpen⟩ := drawGlyph_rastered t g s
    exact ⟨(hglyph.registersAfter _).congr fun i j _ _ => by simp [inChar, hg], by rw [advancePen_raster, hpen]⟩

/-- The characters of a string draw their cells one after the other, and the pen advances for each of them. -/
theorem drawChars_rastered (t : TextStyle) (chars : List Word) (k : Nat) (s : State) :
    Rastered (inText s.cfg t.mirror s.raster.penX t.y t.sx t.sy chars) t.color s (drawChars t chars k s) ∧
      (drawChars t chars k s).raster.penX = s.raster.penX + chars.length * 9 * t.sx := by
  induction chars generalizing k s with
  | nil => exact ⟨rastered_registers s.raster fun i j _ _ => not_inText_nil t _ i j, by simp [drawChars]⟩
  | cons ch chars ih =>
    obtain ⟨hchar, hpen⟩ := drawChar_rastered t ch (setCharIdx k s)
    obtain ⟨hrest, hpen'⟩ := ih (k + 1) (drawChar t ch (setCharIdx k s))
    rw [hpen, hchar.cfg] at hrest
    rw [hpen] at hpen'
    refine ⟨(hchar.trans hrest).registersBefore.congr fun i j _ _ => (inText_cons t).symm, ?_⟩
    · rw [drawChars, hpen', setCharIdx_raster, List.length_cons]
      push_cast
      ring

/-- Where only the rasterizer's registers and the framebuffer changed, `finish` gives up the registers. -/
theorem Rastered.finishedFrom (h : Rastered A c s s') (code : ResultCode) :
    finishedFrom code (setFb s'.fb s) (finish code s') := by
  obtain ⟨⟨m, r, rfl⟩, -⟩ := h
  exact ⟨_, rfl⟩

/-- DRAW_TEXT draws the pixels of its string, writes nothing else and finishes OK (R82, R87). -/
theorem exec_drawText (mirror : Bool) (x y : Int) (c : Color) (sx sy : Int) (chars : List Word) (s : State) :
    ∃ s', exec (.drawText mirror x y c sx sy chars) s = .next (finish .ok s') ∧
      Rastered (inText s.cfg mirror x y sx sy chars) c s s' ∧
      s' = drawChars { mirror := mirror, y := y, color := c, sx := sx, sy := sy } chars 0 (setPen x s) := by
  exact ⟨_, rfl, (drawChars_rastered _ chars 0 (setPen x s)).1.registersBefore, rfl⟩

/-! ### Strings that draw nothing (R83, R84, R85) -/

/-- A rectangle of a size below 1 has no pixel to loop over (R96). -/
theorem fillRectClip_of_nonpos {w h : Int} (hwh : w ≤ 0 ∨ h ≤ 0) (x y : Int) (m : List Host.Cell) :
    fillRectClip p x y w h c m = m := by
  refine forRange_id (fun j hj1 hj2 => funext fun m => forRange_id (fun i hi1 hi2 => ?_) m) m
  simp only [clipLo, clipHi] at hj1 hj2 hi1 hi2
  omega

theorem plotBlock_of_nonpos (h : t.sx ≤ 0 ∨ t.sy ≤ 0) (px py : Int) (m : List Host.Cell) :
    plotBlock p t px py m = m := by
  rw [plotBlock, if_neg (by omega), fillRectClip_of_nonpos h]

theorem drawGlyph_fb_of_nonpos (h : t.sx ≤ 0 ∨ t.sy ≤ 0) (g : GlyphRows) (s : State) :
    (drawGlyph t g s).fb = s.fb := by
  refine List.foldlRecOn (motive := fun u => u.fb = s.fb) _ _ rfl fun (u : State) hu row _ =>
    List.foldlRecOn (motive := fun v => v.fb = s.fb) _ _ hu fun (v : State) hv col _ => ?_
  rw [drawCell_eq, plotBlock_of_nonpos h]
  split <;> exact hv

theorem drawChar_fb_of_nothing (h : t.sx ≤ 0 ∨ t.sy ≤ 0 ∨ ch ∉ charset) (s : State) :
    (drawChar t ch s).fb = s.fb := by
  cases hg : glyphLookup s.cfg ch with
  | none => rw [drawChar_of_none t hg, advancePen_fb]
  | some g =>
    have hscale : t.sx ≤ 0 ∨ t.sy ≤ 0 := by simpa [mem_charset_of_glyphLookup hg] using h
    rw [drawChar_of_some t hg, advancePen_fb, drawGlyph_fb_of_nonpos hscale]

theorem drawChars_fb_of_nothing {chars : List Word}
    (h : ∀ ch ∈ chars, t.sx ≤ 0 ∨ t.sy ≤ 0 ∨ ch ∉ charset) (k : Nat) (s : State) :
    (drawChars t chars k s).fb = s.fb := by
  induction chars generalizing k s with
  | nil => rfl
  | cons ch chars ih =>
    obtain ⟨hch, hchars⟩ := List.forall_mem_cons.1 h
    rw [drawChars, ih hchars, drawChar_fb_of_nothing hch, setCharIdx_fb]

/-! ### What a pixel reads after drawing (R41) -/

theorem pixRead_of_drawn {i j : Nat} (h : drawn p A c m m') (hi : i < p.w) (hj : j < p.h) (hA : A i j) :
    pixRead p i j m' = c := by
  obtain ⟨hfirst, hsecond⟩ := h.1 i j hi hj hA
  rw [pixRead, hfirst, hsecond, joinBytes_bytes]

theorem pixRead_of_not_drawn {i j : Nat} (h : drawn p A c m m') (hi : i < p.w) (hA : ¬ A i j) :
    pixRead p i j m' = pixRead p i j m := by
  have hne : ∀ i' j' : Nat, i' < p.w → A i' j' → pixOff p i j ≠ pixOff p i' j' := fun i' j' hi' hA' he => by
    obtain ⟨rfl, rfl⟩ := pixOff_inj hi hi' he
    exact hA hA'
  have hfirst := h.2 (pixOff p i j) fun i' j' hi' _ hA' => ⟨hne i' j' hi' hA', pixOff_ne_succ⟩
  have hsecond := h.2 (pixOff p i j + 1) fun i' j' hi' _ hA' =>
    ⟨fun he => pixOff_ne_succ he.symm, fun he => hne i' j' hi' hA' (Nat.succ.inj he)⟩
  rw [pixRead, pixRead, hfirst, hsecond]

/-- Two pixels, each in a drawing of its own, read the same after it where they did before and both or neither is covered. -/
theorem pixRead_eq_of_drawn {B : Int → Int → Prop} {i j i' j' : Nat} {n n' : List Host.Cell} (h : drawn p A c m m')
    (h' : drawn p B c n n') (hi : i < p.w) (hj : j < p.h) (hi' : i' < p.w) (hj' : j' < p.h)
    (hAB : A i j ↔ B i' j') (he : pixRead p i j m = pixRead p i' j' n) : pixRead p i j m' = pixRead p i' j' n' := by
  by_cases hA : A i j
  · rw [pixRead_of_drawn h hi hj hA, pixRead_of_drawn h' hi' hj' (hAB.1 hA)]
  · rw [pixRead_of_not_drawn h hi hA, pixRead_of_not_drawn h' hi' (hAB.not.1 hA), he]

end Sys2Proof.Machine

open Sys2Proof Sys2Proof.Machine

/-- Settles O29: from a canonical framebuffer the cells of the string are drawn, by `exec_drawText`. -/
theorem drawTextResult : Obligations.DrawTextResult := by
  intro s mirror x y c sx sy chars hm
  obtain ⟨s', he, hdraws, -⟩ := exec_drawText mirror x y c sx sy chars s
  exact ⟨s'.fb, _, he, hdraws.finishedFrom .ok, (hdraws.2 hm).2⟩

/-- Settles O16: each of the conditions fails its part of `configOk`. -/
theorem badRomRefused : Obligations.BadRomRefused := by
  intro s hbad
  refine step_refused_of_configOk_ne fun hc => ?_
  obtain ⟨-, hglyphs, hinit⟩ := configOk_iff.1 hc
  obtain ⟨hone, hclosed, height⟩ := glyphRomOk_iff.1 hglyphs
  obtain ⟨ch, hch, hcount⟩ | ⟨e, he, hout⟩ | ⟨g, hg, hother⟩ | hends := hbad
  · exact hcount (hone ch hch)
  · exact hout (hclosed e he)
  · rw [(glyphLookup_eq_some_iff hglyphs).2 hg] at height
    exact hother (Option.some.inj height)
  · exact hends ⟨_, _, _, rfl, initRomOk_iff.1 hinit⟩

/-- Settles O30: no character writes a byte, and the packet without characters is computed. -/
theorem textThatDrawsNothing : Obligations.TextThatDrawsNothing := by
  refine ⟨fun s mirror x y c sx sy chars h => ?_, fun _ _ _ _ _ _ => rfl⟩
  obtain ⟨s', he, hdraws, rfl⟩ := exec_drawText mirror x y c sx sy chars s
  have hnothing : ∀ ch ∈ chars, sx ≤ 0 ∨ sy ≤ 0 ∨ ch ∉ charset := by
    obtain h | h | rfl | h := h
    · exact fun _ _ => .inl h
    · exact fun _ _ => .inr (.inl h)
    · simp
    · exact fun ch hch => .inr (.inr (h ch hch))
  have hfin := hdraws.finishedFrom .ok
  rw [drawChars_fb_of_nothing hnothing, setPen_fb] at hfin
  exact ⟨_, he, hfin⟩

/-- Settles O31: each character advances the pen, by `drawChars_rastered`. -/
theorem penAdvance : Obligations.PenAdvance := fun t chars k s => (drawChars_rastered t chars k s).2

/-- Settles O32: mirror images are both covered or both not, by `inText_mirror`. -/
theorem mirrorReversesColumns : Obligations.MirrorReversesColumns := by
  intro s t t' x y c sx sy ch i i' j hm hi hi' hj hmid hsame ht ht'
  obtain ⟨u, he, hdraws, -⟩ := exec_drawText true x y c sx sy [ch] s
  obtain ⟨u', he', hdraws', -⟩ := exec_drawText false x y c sx sy [ch] s
  cases he.symm.trans ht
  cases he'.symm.trans ht'
  exact pixRead_eq_of_drawn (hdraws.2 hm).2 (hdraws'.2 hm).2 hi hj hi' hj (inText_mirror hmid) hsame

/-- Settles O33: the check of the glyph ROM leaves one entry for each supported code and none besides. -/
theorem characterSetIsClosed : Obligations.CharacterSetIsClosed := by
  intro p hc
  obtain ⟨-, hglyphs, -⟩ := configOk_iff.1 hc
  obtain ⟨-, -, height⟩ := glyphRomOk_iff.1 hglyphs
  exact ⟨fun _ => (glyphLookup_isSome_iff hglyphs).trans mem_charset_iff, fun _ _ => glyphLookup_eq_some_iff hglyphs,
    height⟩

/-- Settles O34: the 64 bits are computed. -/
theorem glyphEightPicture : Obligations.GlyphEightPicture := by
  unfold Obligations.GlyphEightPicture
  decide
end

section
/-! PROOFS. The statements of spec/41_framebuffer.md: what SET_PIXEL, FILL_RECT and FILL draw, and that a rectangle may be
computed over its clipped bounds. The last is one fact about a loop along one axis, `forRange_clipped`, used for the rows
and for the pixels of a row. -/

namespace Sys2Proof.Machine

variable {p : Params} {c : Color} {m m' : List Host.Cell}

/-! ### Loops that do nothing outside an interval -/

/-- A loop over an interval is the loop over all numbers below a bound that does nothing outside the interval. -/
theorem forRange_eq_ite (f : Nat → List Host.Cell → List Host.Cell) {lo hi n : Nat} (hn : hi ≤ n)
    (m : List Host.Cell) :
    forRange lo hi f m = forRange 0 n (fun k => if lo ≤ k ∧ k < hi then f k else id) m := by
  by_cases hlo : lo ≤ hi
  · rw [forRange_append lo.zero_le (hlo.trans hn), forRange_append hlo hn,
      forRange_id (lo := 0) fun k _ hk => if_neg (by omega), forRange_id (lo := hi) fun k hk _ => if_neg (by omega)]
    exact forRange_congr (fun k h1 h2 => (if_pos ⟨h1, h2⟩).symm) m
  · rw [forRange_id fun k h1 h2 => absurd (h1.trans_lt h2) (by omega), forRange_id fun k _ _ => if_neg (by omega)]

/-- Two intervals give the same loop where the body does nothing at the numbers that lie in one of them only. -/
theorem forRange_eq_of_id {f : Nat → List Host.Cell → List Host.Cell} {lo hi lo' hi' : Nat}
    (h : ∀ k, (lo ≤ k ∧ k < hi ↔ lo' ≤ k ∧ k < hi') ∨ f k = id) (m : List Host.Cell) :
    forRange lo hi f m = forRange lo' hi' f m := by
  rw [forRange_eq_ite f (le_max_left hi hi'), forRange_eq_ite f (le_max_right hi hi')]
  refine forRange_congr (fun k _ _ => ?_) m
  obtain hk | hk := h k
  · simp only [hk]
  · simp only [hk, ite_self]

/-- A loop along one axis, from `v` on, whose body does nothing outside the panel's `n` coordinates, is the loop over the
clipped interval: both are loops over the distance from `min(v, 0)`. -/
theorem forRange_clipped {g : Int → List Host.Cell → List Host.Cell} {n : Nat}
    (hg : ∀ k : Int, k < 0 ∨ (n : Int) ≤ k → g k = id) (v len : Int) (m : List Host.Cell) :
    forRange (clipLo v) (clipHi v len n) (fun k => g k) m = forRange 0 len.toNat (fun d => g (v + d)) m := by
  have hclip := forRange_shift (f := fun k : Nat => g (k + min v 0)) (g := fun k : Nat => g k) (d := (-v).toNat)
    (lo := clipLo v) (hi := clipHi v len n) (fun k => congrArg g (by omega)) m
  have hloop := forRange_shift (f := fun k : Nat => g (k + min v 0)) (g := fun d : Nat => g (v + d)) (d := v.toNat)
    (lo := 0) (hi := len.toNat) (fun k => congrArg g (by omega)) m
  rw [← hclip, ← hloop]
  refine forRange_eq_of_id (fun k => ?_) m
  by_cases hk : (k : Int) + min v 0 < 0 ∨ (n : Int) ≤ k + min v 0
  · exact .inr (hg _ hk)
  · refine .inl ?_
    simp only [clipLo, clipHi]
    omega

/-! ### Rectangles (R96, R97, R98) -/

theorem plotPixel_of_not_inBounds {x y : Int} (h : ¬ (0 ≤ x ∧ x < p.w ∧ 0 ≤ y ∧ y < p.h)) :
    plotPixel p x y c = id := by
  funext m
  rw [plotPixel, if_neg (inBounds_iff.not.2 h), id]

/-- The loop over the whole footprint is the loop over the clipped bounds (R97). -/
theorem fillRectClip_eq_fillRectLoop (x y w h : Int) : fillRectClip p x y w h c m = fillRectLoop p x y w h c m := by
  have hrow : ∀ (j : Int) (m : List Host.Cell), forRange (clipLo x) (clipHi x w p.w) (fun i => plotPixel p i j c) m =
      forRange 0 w.toNat (fun di => plotPixel p (x + di) j c) m := fun j =>
    forRange_clipped (g := fun i => plotPixel p i j c) (fun i hi => plotPixel_of_not_inBounds (by omega)) x w
  have hrows := forRange_clipped (g := fun j => forRange 0 w.toNat fun di => plotPixel p (x + di) j c) (n := p.h)
    (fun j hj => funext <| forRange_id fun di _ _ => plotPixel_of_not_inBounds (by omega)) y h m
  rw [fillRectClip, fillRectLoop, ← hrows]
  exact forRange_congr (fun j _ _ => funext (hrow j)) m

/-- A rectangle without a pixel of the panel leaves the framebuffer list itself unchanged. -/
theorem fillRectClip_of_disjoint {x y w h : Int} (hout : ∀ i j : Nat, i < p.w → j < p.h → ¬ inRect x y w h i j) :
    fillRectClip p x y w h c m = m := by
  refine forRange_id (fun j hj1 hj2 => funext <| forRange_id fun i hi1 hi2 => ?_) m
  simp only [clipLo, clipHi] at hj1 hj2 hi1 hi2
  exact absurd (by simp only [inRect]; omega) (hout i j (by omega) (by omega))

/-! ### What the operations leave -/

theorem exec_setPixel (x y : Int) (c : Color) (s : State) :
    exec (.setPixel x y c) s = .next (finish .ok (setFb (plotPixel s.cfg x y c s.fb) s)) := rfl

theorem exec_fillRect (x y w h : Int) (c : Color) (s : State) :
    exec (.fillRect x y w h c) s = .next (finish .ok (setFb (fillRectClip s.cfg x y w h c s.fb) s)) := rfl

theorem exec_fill (c : Color) (s : State) :
    exec (.fill c) s = .next (finish .ok (setFb (fillAll s.cfg c s.fb) s)) := rfl

theorem finishedFrom_finish (code : ResultCode) (s : State) : finishedFrom code s (finish code s) := ⟨_, rfl⟩

/-- Where every pixel is drawn, the two bytes from every even offset hold the color (R94). -/
theorem fbRead_of_drawn_everywhere (h : drawn p (fun _ _ => True) c m m') {k : Nat} (hk : 2 * k < p.fbBytes) :
    fbRead p (2 * k) m' = firstByte p.byteOrder c ∧ fbRead p (2 * k + 1) m' = secondByte p.byteOrder c := by
  obtain ⟨i, j, hi, hj, ho | ho⟩ := exists_pixOff hk
  · rw [ho]
    exact h.1 i j hi hj trivial
  · have heven := pixOff_even p i j
    omega

end Sys2Proof.Machine

open Sys2Proof Sys2Proof.Machine

/-- Settles O24, by `forRange_clipped` along each axis. -/
theorem clippedRectAgreesWithLoop : Obligations.ClippedRectAgreesWithLoop := fun _ x y w h _ _ =>
  fillRectClip_eq_fillRectLoop x y w h

/-- Settles O20: the pixel is drawn, by `plotPixel_draws`. -/
theorem setPixelResult : Obligations.SetPixelResult := fun s x y c hm =>
  ⟨_, _, exec_setPixel x y c s, finishedFrom_finish .ok _, (plotPixel_draws x y hm).2⟩

/-- Settles O21: the footprint is drawn, by `fillRectClip_draws`. -/
theorem fillRectResult : Obligations.FillRectResult := fun s x y w h c hm =>
  ⟨_, _, exec_fillRect x y w h c s, finishedFrom_finish .ok _, (fillRectClip_draws x y w h hm).2⟩

/-- Settles O22: every pixel is drawn, by `fillAll_draws`, and every even offset is a pixel's. -/
theorem fillResult : Obligations.FillResult := by
  intro s c hm
  have hall := (fillAll_draws (c := c) hm).2
  exact ⟨_, _, exec_fill c s, finishedFrom_finish .ok _, hall, fun _ hk => fbRead_of_drawn_everywhere hall hk⟩

/-- Settles O25: the pixel is drawn, so its two bytes join to the color. -/
theorem pixelReadsBackAsWritten : Obligations.PixelReadsBackAsWritten := fun _ x y _ _ hm hx hy =>
  pixRead_of_drawn (plotPixel_draws x y hm).2 hx hy ⟨rfl, rfl⟩

/-- Settles O26: no pixel of the panel lies in the rectangle, or every one does. -/
theorem rectangleExtremes : Obligations.RectangleExtremes := by
  intro s x y w h c
  refine ⟨fun hout => ⟨finish .ok s, ?_, finishedFrom_finish .ok s⟩, fun ⟨hx, hy, hw, hh⟩ => ?_⟩
  · rw [exec_fillRect, fillRectClip_of_disjoint fun i j hi hj => by simp only [inRect]; omega]
    rfl
  · rw [exec_fillRect, exec_fill, fillRectClip_covering hx hy hw hh]
end

section
/-! PROOFS. The statements of spec/42_panel.md: one byte, one frame, the window bytes, and how INIT and SHOW end. What they
send is `Sends` of Laws/Bus: here each of its two outcomes, every draw `ok` and a first draw that fails, is carried to the
end of the operation; what a SHOW puts on the trace is then read through the projections of R104. -/

namespace Sys2Proof.Machine

variable {s t : State} {k p : Nat} {f : Frame}

/-! ### One frame (R102) -/

/-- Of the sequencer's registers only `BYTE_IDX` is written while bytes are shifted out. -/
theorem transfer_seq (bytes : List Byte) (k : Nat) (s : State) :
    ∃ n, (transfer bytes k s).seq = { s.seq with byteIdx := n } := by
  induction bytes generalizing k s with
  | nil => exact ⟨s.seq.byteIdx, rfl⟩
  | cons b bs ih =>
    obtain ⟨n, hn⟩ := ih (k + 1) (shift b (setByteIdx k s))
    exact ⟨n, by rw [transfer, hn, shift_seq, setByteIdx_seq]⟩

theorem frame_seq (dc : Bool) (bytes : List Byte) (s : State) :
    ∃ n, (frame dc bytes s).1.seq = { s.seq with byteIdx := n } := by
  unfold frame
  dsimp only
  split <;> exact transfer_seq _ _ _

/-! ### Bytes of a number (R113) -/

theorem toNat_hiByte (w : Word) : (hiByte w).toNat = w.toNat / 256 := by
  rw [hiByte, BitVec.extractLsb'_toNat, Nat.shiftRight_eq_div_pow]
  omega

theorem toNat_loByte (w : Word) : (loByte w).toNat = w.toNat % 256 := by
  rw [loByte, BitVec.extractLsb'_toNat, Nat.shiftRight_zero]

theorem finish_setPhase (code : ResultCode) (v : Phase) (s : State) : finish code (setPhase v s) = finish code s := rfl

/-! ### How an admitted INIT ends (R110 to R112, R124) -/

theorem exec_init (s : State) : exec .init s = execInit s := rfl

theorem bringUp_of_busClean (h : busClean s (initFrames s.cfg).length) :
    bringUp s = ended .ok .ready s.fb (pulseEvents ++ framesEvents (initFrames s.cfg)) (initFrames s.cfg).length s := by
  obtain ⟨q, hq⟩ := (walkRom_sends (romEntries s.cfg.initRom) 0 (setPhase .rom (resetPulse (acceptInit s)))).1 h
  simp only [bringUp, hq]
  rw [← finish_bringUp .ok .ready q]
  rfl

theorem bringUp_of_busFaultsAt (hk : (initFrames s.cfg)[k]? = some f) (h : busFaultsAt s k p) :
    bringUp s = ended .busFault .uninit s.fb
      (pulseEvents ++ (framesEvents ((initFrames s.cfg).take k) ++ frameEvents (f.1, f.2.take p))) (k + 1) s := by
  obtain ⟨q, hq⟩ :=
    (walkRom_sends (romEntries s.cfg.initRom) 0 (setPhase .rom (resetPulse (acceptInit s)))).2 k p f hk h
  simp only [bringUp, hq]
  exact finish_bringUp .busFault .uninit q _ _ s

/-- An operation that leaves the framebuffer ends as `finish` after what it sent and the change of STATE. -/
theorem finishedFrom_ended (code : ResultCode) (v : PanelState) (es : List Event) (n : Nat) (s : State) :
    finishedFrom code (setPanel v (sent es n s)) (ended code v s.fb es n s) := ⟨_, rfl⟩

/-! ### How a SHOW ends (R114, R117, R123) -/

theorem exec_showPanel_ready (h : s.panel = .ready) : exec .showPanel s = .next (sendImage s) := by
  simp only [exec, execShow, h]

theorem exec_showPanel_refused (h : s.panel ≠ .ready) : exec .showPanel s = .next (finish .badState s) := by
  simp only [exec, execShow]
  split
  · exact absurd ‹_› h
  · rfl
  · rfl

theorem sendImage_of_busClean (h : busClean s (showFrames s.cfg s.fb).length) : sendImage s =
    finish .ok (sent (framesEvents (showFrames s.cfg s.fb)) (showFrames s.cfg s.fb).length s) := by
  obtain ⟨q, hq⟩ := (sendScreen_sends s).1 h
  simp only [sendImage, hq, finish_setPhase, finish_setSeq]

theorem sendImage_of_busFaultsAt (hk : (showFrames s.cfg s.fb)[k]? = some f) (h : busFaultsAt s k p) :
    sendImage s = finish .busFault
      (sent (framesEvents ((showFrames s.cfg s.fb).take k) ++ frameEvents (f.1, f.2.take p)) (k + 1) s) := by
  obtain ⟨q, hq⟩ := (sendScreen_sends s).2 k p f hk h
  simp only [sendImage, hq, finish_setSeq]

/-- A SHOW that finishes OK was accepted and has sent every frame: any other end has another result. -/
theorem exec_showPanel_ok (h : exec .showPanel s = .next t) (hok : t.result = .ok) :
    t = finish .ok (sent (framesEvents (showFrames s.cfg s.fb)) (showFrames s.cfg s.fb).length s) := by
  by_cases hp : s.panel = .ready
  · rw [exec_showPanel_ready hp] at h
    obtain hc | ⟨k, p, hk, hf⟩ := busClean_or_faults s (showFrames s.cfg s.fb).length
    · rw [sendImage_of_busClean hc] at h
      cases h
      rfl
    · rw [sendImage_of_busFaultsAt (List.getElem?_eq_getElem hk) hf] at h
      cases h
      cases hok
  · rw [exec_showPanel_refused hp] at h
    cases h
    cases hok

/-! ### What SHOW's frames are (R113, R115, R116, R118) -/

theorem length_fbBytesOf (p : Params) (m : List Host.Cell) : (fbBytesOf p m).length = p.w * p.h * 2 := by
  rw [fbBytesOf, List.length_map, List.length_range, Params.fbBytes]

/-- The 12 frames one by one: the zeros are the bytes of `Be16(0)`. -/
theorem showFrames_eq (p : Params) (m : List Host.Cell) : showFrames p m =
    [(false, [p.cmds.caset]), (true, [0x00#8]), (true, [0x00#8]),
      (true, [hiByte (BitVec.ofNat 16 (p.w - 1))]), (true, [loByte (BitVec.ofNat 16 (p.w - 1))]),
      (false, [p.cmds.raset]), (true, [0x00#8]), (true, [0x00#8]),
      (true, [hiByte (BitVec.ofNat 16 (p.h - 1))]), (true, [loByte (BitVec.ofNat 16 (p.h - 1))]),
      (false, [p.cmds.ramwr]), (true, fbBytesOf p m)] := rfl

theorem byteCount_showFrames (p : Params) (m : List Host.Cell) :
    ((showFrames p m).map fun f => f.2.length).sum = 11 + p.w * p.h * 2 := by
  simp [showFrames_eq, length_fbBytesOf, ← Nat.add_assoc]

/-- Frames sent after a trace that ends deselected are read as just these frames (R104). -/
theorem traceFrames_append_framesEvents {es : List Event} (h : framing false es = some false) (fs : List Frame) :
    traceFrames (es ++ framesEvents fs) = traceFrames es ++ fs := by
  rw [traceFrames, traceFramesFrom_append false false none es _ rfl h, traceFramesFrom_framesEvents, traceFrames]

/-- Frames sent add their bytes to those of the trace, whatever the trace is (R104). -/
theorem length_traceBytes_append_framesEvents (es : List Event) (fs : List Frame) :
    (traceBytes (es ++ framesEvents fs)).length = (traceBytes es).length + (fs.map fun f => f.2.length).sum := by
  simp only [traceBytes, traceBytesFrom_append, traceBytesFrom_framesEvents, List.length_append, List.length_flatMap,
    List.length_map]

end Sys2Proof.Machine

open Sys2Proof Sys2Proof.Machine

/-- Settles O36: `frame_sends` says what is sent, `frame_seq` which register it leaves elsewhere. -/
theorem frameEventsAndReply : Obligations.FrameEventsAndReply := by
  intro s dc bytes
  obtain ⟨n, hn⟩ := frame_seq dc bytes s
  constructor
  · intro hd
    obtain ⟨q, hq⟩ := (frame_sends dc bytes s).1 fun k hk => by simpa [Nat.lt_one_iff.1 hk] using hd
    rw [hq] at hn ⊢
    obtain rfl : q = { s.seq with byteIdx := n } := hn
    exact ⟨n, by rw [framesEvents_cons, framesEvents_nil, List.append_nil]; rfl⟩
  · intro k hd
    obtain ⟨q, hq⟩ := (frame_sends dc bytes s).2 0 k (dc, bytes) rfl ⟨busClean_zero s, hd⟩
    rw [hq] at hn ⊢
    obtain rfl : q = { s.seq with byteIdx := n } := hn
    exact ⟨n, rfl⟩

/-- Settles O38: the walk's first outcome, carried to the end of INIT. -/
theorem initBringsPanelUp : Obligations.InitBringsPanelUp := fun s ha hc =>
  ⟨_, by rw [exec_init, execInit_admitted ha, bringUp_of_busClean hc], finishedFrom_ended ..⟩

/-- Settles O39: the walk's second outcome, carried to the end of INIT. -/
theorem initBusFault : Obligations.InitBusFault := fun s k p f ha hk hf =>
  ⟨_, by rw [exec_init, execInit_admitted ha, bringUp_of_busFaultsAt hk hf, ← List.append_assoc], finishedFrom_ended ..⟩

/-- Settles O42: the first outcome of SHOW's sequence, carried to its end. -/
theorem showSendsImage : Obligations.ShowSendsImage := fun s hp hc =>
  ⟨_, by rw [exec_showPanel_ready hp, sendImage_of_busClean hc], finishedFrom_finish ..⟩

/-- Settles O43: the second outcome of SHOW's sequence, carried to its end. -/
theorem showBusFault : Obligations.ShowBusFault := fun s k p f hp hk hf =>
  ⟨_, by rw [exec_showPanel_ready hp, sendImage_of_busFaultsAt hk hf], finishedFrom_finish ..⟩

/-- Settles O45: such a SHOW has sent all of `showFrames`, and the projections of a trace read frames put after it as
these frames. -/
theorem showTransmitsFullFrame : Obligations.ShowTransmitsFullFrame := by
  intro s t hframed h hok
  have ht : t.trace = s.trace ++ framesEvents (showFrames s.cfg s.fb) := by rw [exec_showPanel_ok h hok]; rfl
  refine ⟨_, ht, ?_, length_fbBytesOf s.cfg s.fb, ?_, ?_⟩
  · rw [ht, traceFrames_append_framesEvents hframed, showFrames_eq]
  · rw [ht, length_traceBytes_append_framesEvents, byteCount_showFrames]
  · exact List.countP_eq_length_filter.symm.trans (countP_isPin_framesEvents _)

/-- Settles O35: the waveform written out level by level. -/
theorem waveformCarriesByte : Obligations.WaveformCarriesByte := fun v _ s =>
  ⟨rfl, rfl, rfl, shift_lines v s⟩

/-- Settles O37: the two bytes are quotient and remainder by 256. -/
theorem windowBytes : Obligations.WindowBytes := by
  refine ⟨fun v hv => ⟨_, _, rfl, ?_⟩, fun _ => rfl, by decide, by decide⟩
  rw [toNat_hiByte, toNat_loByte, BitVec.toNat_ofNat]
  omega

/-- Settles O40, by `execInit_refused`. -/
theorem initRefusedOutsideUninit : Obligations.InitRefusedOutsideUninit := fun s hp ha =>
  ⟨_, by rw [exec_init, execInit_refused hp ha], finishedFrom_finish .badState s⟩

/-- Settles O44, by `exec_showPanel_refused`. -/
theorem showRefusedOutsideReady : Obligations.ShowRefusedOutsideReady := fun s hp =>
  ⟨_, exec_showPanel_refused hp, finishedFrom_finish .badState s⟩
end

section
/-! PROOFS. The statements of spec/60_exceptions.md: which code a packet reports, and what an operation that reports it
leaves alone. The two ways a packet is illegal are said once by `headerIllegal`; what drawing reads of the state is
`SameCanvas`, and what only INIT and SHOW write of it is `busUntouched`. -/

namespace Sys2Proof

variable {hdr : Word} {args : List Word}

/-- The header makes its packet ILLEGAL: an unknown opcode, or a known one with a reserved flag bit set (R126). -/
def headerIllegal (hdr : Word) : Prop :=
  headerOpcode hdr = none ∨ ∃ op, headerOpcode hdr = some op ∧ flagsField hdr &&& reservedFlags op ≠ 0#8

theorem decode_unknownOpcode (hlen : packetLength hdr args = some (args.length + 1)) (ho : headerOpcode hdr = none) :
    decode hdr args = .error .unknownOpcode := by
  simp only [decode, if_pos hlen, ho]

theorem decode_reservedFlags {op : Opcode} (hlen : packetLength hdr args = some (args.length + 1))
    (ho : headerOpcode hdr = some op) (hf : flagsField hdr &&& reservedFlags op ≠ 0#8) :
    decode hdr args = .error .reservedFlags := by
  simp only [decode, if_pos hlen, ho, if_neg hf]

/-- A packet of its own length is an operation of its header's opcode where the header is not illegal. -/
theorem decode_of_not_headerIllegal (hlen : packetLength hdr args = some (args.length + 1)) (h : ¬ headerIllegal hdr) :
    ∃ i, decode hdr args = .ok i ∧ headerOpcode hdr = some i.opcode := by
  obtain ⟨hsome, hflags⟩ := not_or.1 h
  obtain ⟨op, ho⟩ := Option.ne_none_iff_exists'.1 hsome
  have hf : flagsField hdr &&& reservedFlags op = 0#8 := by_contra fun hf => hflags ⟨op, ho, hf⟩
  obtain ⟨i, hi⟩ := decodeArgs_ok_of_packetLength ho hlen
  exact ⟨i, decode_ok_iff.2 ⟨hlen, op, ho, hf, hi⟩, by rw [(decodeArgs_ok_iff.1 hi).1, ho]⟩

/-- Only SHOW's opcode with every flag bit 0 decodes to a SHOW (R61, R62). -/
theorem header_of_decode_showPanel (h : decode hdr args = .ok .showPanel) : hdr = 0x3000#16 :=
  (List.cons.inj (wellFormed_encode_of_decode h).2).1.symm

end Sys2Proof

namespace Sys2Proof.Machine

variable {s s' t : State}

/-! ### Illegal packets (R126) -/

theorem perform_of_headerIllegal (hl : latchWhole s.latch) (h : headerIllegal s.latch.hdr) :
    perform s = .next (finish .illegal s) := by
  obtain ⟨-, hlen⟩ := hl
  obtain ho | ⟨op, ho, hf⟩ := h
  · simp only [perform, decode_unknownOpcode hlen ho]
  · simp only [perform, decode_reservedFlags hlen ho hf]

/-! ### The code an operation reports (R127 to R130) -/

/-- Where not every draw is true, some frame is the first to fail (R105). -/
theorem exists_busFaultsAt {fs : List Frame} (h : ¬ busClean s fs.length) :
    ∃ k p f, fs[k]? = some f ∧ busFaultsAt s k p := by
  obtain ⟨k, p, hk, hf⟩ := (busClean_or_faults s fs.length).resolve_left h
  exact ⟨k, p, fs[k], List.getElem?_eq_getElem hk, hf⟩

theorem bringUp_result_ok (h : busClean s (initFrames s.cfg).length) : (bringUp s).result = .ok := by
  rw [bringUp_of_busClean h]
  rfl

theorem bringUp_result_busFault (h : ¬ busClean s (initFrames s.cfg).length) : (bringUp s).result = .busFault := by
  obtain ⟨k, p, f, hk, hf⟩ := exists_busFaultsAt h
  rw [bringUp_of_busFaultsAt hk hf]
  rfl

theorem sendImage_result_ok (h : busClean s (showFrames s.cfg s.fb).length) : (sendImage s).result = .ok := by
  rw [sendImage_of_busClean h, finish_result]

theorem sendImage_result_busFault (h : ¬ busClean s (showFrames s.cfg s.fb).length) :
    (sendImage s).result = .busFault := by
  obtain ⟨k, p, f, hk, hf⟩ := exists_busFaultsAt h
  rw [sendImage_of_busFaultsAt hk hf, finish_result]

theorem exec_init_admitted (ha : initAdmitted s) : exec .init s = .next (bringUp s) := execInit_admitted ha

theorem exec_init_refused (ha : ¬ initAdmitted s) : exec .init s = .next (finish .badState s) := by
  obtain ⟨hu, hacc⟩ := not_or.1 ha
  exact execInit_refused hu (by simpa using hacc)

/-- An operation ends with BUSY 0, whatever its code (R133). -/
theorem exec_busy {i : Instr} (h : exec i s = .next t) : t.busy = false := by
  obtain ⟨code, p, m, es, n, rfl, -⟩ := exec_cases h
  rfl

/-- The code of INIT: the STATE check, then the bus. -/
theorem exec_init_result (h : exec .init s = .next t) :
    (¬ initAdmitted s → t.result = .badState) ∧
    (initAdmitted s → busClean s (initFrames s.cfg).length → t.result = .ok) ∧
    (initAdmitted s → ¬ busClean s (initFrames s.cfg).length → t.result = .busFault) := by
  by_cases ha : initAdmitted s
  · obtain rfl : bringUp s = t := by simpa [exec_init_admitted ha] using h
    exact ⟨absurd ha, fun _ => bringUp_result_ok, fun _ => bringUp_result_busFault⟩
  · obtain rfl : finish .badState s = t := by simpa [exec_init_refused ha] using h
    exact ⟨fun _ => rfl, fun h => absurd h ha, fun h => absurd h ha⟩

/-- The code of SHOW: the STATE check, then the bus. -/
theorem exec_showPanel_result (h : exec .showPanel s = .next t) :
    (s.panel ≠ .ready → t.result = .badState) ∧
    (s.panel = .ready → busClean s (showFrames s.cfg s.fb).length → t.result = .ok) ∧
    (s.panel = .ready → ¬ busClean s (showFrames s.cfg s.fb).length → t.result = .busFault) := by
  by_cases hp : s.panel = .ready
  · obtain rfl : sendImage s = t := by simpa [exec_showPanel_ready hp] using h
    exact ⟨absurd hp, fun _ => sendImage_result_ok, fun _ => sendImage_result_busFault⟩
  · obtain rfl : finish .badState s = t := by simpa [exec_showPanel_refused hp] using h
    exact ⟨fun _ => rfl, fun h => absurd h hp, fun h => absurd h hp⟩

theorem exec_drawsOnly_result {i : Instr} (hd : drawsOnly i = true) (h : exec i s = .next t) : t.result = .ok := by
  obtain ⟨m, he, -⟩ := exec_drawsOnly hd s
  rw [he] at h
  cases h
  rfl

/-! ### What drawing reads of the state (R82, R92 to R94) -/

/-- Two states that agree on all a drawing reads of them: the parameters, the framebuffer and the pen. -/
structure SameCanvas (s s' : State) : Prop where
  cfg : s.cfg = s'.cfg
  fb  : s.fb = s'.fb
  pen : s.raster.penX = s'.raster.penX

/-- `ROW` and `COL` are written before they are read. -/
theorem SameCanvas.drawCell (h : SameCanvas s s') (t : TextStyle) (g : GlyphRows) (row col : Nat) :
    SameCanvas (drawCell t g row col s) (drawCell t g row col s') := by
  obtain ⟨hcfg, hfb, hpen⟩ := h
  rw [drawCell_eq, drawCell_eq, hcfg, hfb, hpen]
  split
  · exact ⟨hcfg, rfl, hpen⟩
  · exact ⟨hcfg, hfb, hpen⟩

theorem SameCanvas.drawGlyph (h : SameCanvas s s') (t : TextStyle) (g : GlyphRows) :
    SameCanvas (drawGlyph t g s) (drawGlyph t g s') :=
  List.foldl_rel h fun row _ _ _ hrow => List.foldl_rel hrow fun col _ _ _ hcell => hcell.drawCell t g row col

theorem SameCanvas.advancePen (h : SameCanvas s s') (sx : Int) : SameCanvas (advancePen sx s) (advancePen sx s') :=
  ⟨h.cfg, h.fb, by simp [h.pen]⟩

theorem SameCanvas.drawChar (h : SameCanvas s s') (t : TextStyle) (ch : Word) :
    SameCanvas (drawChar t ch s) (drawChar t ch s') := by
  cases hg : glyphLookup s.cfg ch with
  | none =>
    rw [drawChar_of_none t hg, drawChar_of_none t (h.cfg ▸ hg)]
    exact h.advancePen t.sx
  | some g =>
    rw [drawChar_of_some t hg, drawChar_of_some t (h.cfg ▸ hg)]
    exact (h.drawGlyph t g).advancePen t.sx

/-- `CHAR_IDX` is written and never read by a drawing. -/
theorem SameCanvas.setCharIdx (h : SameCanvas s s') (k : Nat) : SameCanvas (setCharIdx k s) (setCharIdx k s') :=
  ⟨h.cfg, h.fb, h.pen⟩

theorem SameCanvas.drawChars (h : SameCanvas s s') (t : TextStyle) (chars : List Word) (k : Nat) :
    SameCanvas (drawChars t chars k s) (drawChars t chars k s') := by
  induction chars generalizing k s s' with
  | nil => exact h
  | cons ch chars ih => exact ih ((h.setCharIdx k).drawChar t ch) (k + 1)

/-! ### What touches the lines, the trace and the draws (R126 to R128) -/

/-- From `s` to `t` no line was driven, no event was appended and no draw was taken. -/
def busUntouched (s t : State) : Prop := t.trace = s.trace ∧ t.lines = s.lines ∧ t.bus = s.bus

theorem busUntouched_finish (code : ResultCode) (s : State) : busUntouched s (finish code s) := ⟨rfl, rfl, rfl⟩

theorem busUntouched_receive (w : Word) (s : State) : busUntouched s (receive w s) := by
  obtain ⟨-, h⟩ | ⟨-, h⟩ := receive_cases w s <;> rw [h] <;> exact ⟨rfl, rfl, rfl⟩

/-- Of the operations only an admitted INIT and a SHOW in READY reach the bus. -/
theorem exec_busUntouched {i : Instr} (h : exec i s = .next t) :
    busUntouched s t ∨ i = .init ∧ initAdmitted s ∨ i = .showPanel ∧ s.panel = .ready := by
  by_cases hd : drawsOnly i = true
  · obtain ⟨m, he, -⟩ := exec_drawsOnly hd s
    rw [he] at h
    cases h
    exact .inl (busUntouched_finish .ok (setFb m s))
  · cases i with
    | setPixel | fillRect | fill | drawText => exact absurd rfl hd
    | init =>
      refine or_iff_not_imp_right.2 fun hno => ?_
      rw [exec_init_refused fun ha => hno (.inl ⟨rfl, ha⟩)] at h
      cases h
      exact busUntouched_finish .badState s
    | showPanel =>
      refine or_iff_not_imp_right.2 fun hno => ?_
      rw [exec_showPanel_refused fun hp => hno (.inr ⟨rfl, hp⟩)] at h
      cases h
      exact busUntouched_finish .badState s

end Sys2Proof.Machine

open Sys2Proof Sys2Proof.Machine

/-- Settles O8: the packet is illegal by its header, and `finish` leaves all it does not write. -/
theorem illegalPacketHasNoEffect : Obligations.IllegalPacketHasNoEffect := fun s hc hb hn hl hill =>
  ⟨_, by rw [step_perform hc hb hn, perform_of_headerIllegal hl hill], finishedFrom_finish .illegal s, finish_fb .illegal s,
    finish_trace .illegal s, finish_panel .illegal s⟩

/-- Settles O9: the header is illegal, or the packet is an operation, whose own code is that of INIT, SHOW or a drawing. -/
theorem resultCodePriority : Obligations.ResultCodePriority := by
  intro s hc hb hn hl
  rw [step_perform hc hb hn]
  by_cases hill : headerIllegal s.latch.hdr
  · refine ⟨_, perform_of_headerIllegal hl hill, rfl, fun _ => rfl, fun op ho => ⟨fun _ => rfl, fun hf => ?_⟩⟩
    simp [headerIllegal, ho, hf] at hill
  · obtain ⟨i, hd, hi⟩ := decode_of_not_headerIllegal hl.2 hill
    obtain ⟨t, ht⟩ := exec_next i s
    refine ⟨t, by rw [perform_of_decode hd, ht], exec_busy ht, fun ho => absurd (.inl ho) hill, fun op ho =>
      ⟨fun hf => absurd (.inr ⟨op, ho, hf⟩) hill, fun _ => ?_⟩⟩
    obtain rfl : i.opcode = op := by simpa [hi] using ho
    cases i with
    | init =>
      obtain ⟨hbad, hok, hfault⟩ := exec_init_result ht
      exact ⟨fun _ hp hacc => hbad (not_or.2 ⟨hp, by simp [hacc]⟩), fun _ => hok, fun _ => hfault, nofun, nofun, nofun,
        fun h => absurd rfl h⟩
    | showPanel =>
      obtain ⟨hbad, hok, hfault⟩ := exec_showPanel_result ht
      exact ⟨nofun, nofun, nofun, fun _ => hbad, fun _ => hok, fun _ => hfault, fun _ h => absurd rfl h⟩
    | setPixel | fillRect | fill | drawText =>
      exact ⟨nofun, nofun, nofun, nofun, nofun, nofun, fun _ _ => exec_drawsOnly_result rfl ht⟩

/-- Settles O28: a pixel and a rectangle are computed from the parameters and the framebuffer, and a string from these and
the pen, which DRAW_TEXT sets first. -/
theorem drawingIgnoresPanel : Obligations.DrawingIgnoresPanel := by
  intro i s s' hd hcfg hfb
  cases i with
  | init | showPanel => cases hd
  | setPixel x y c => exact ⟨_, _, rfl, rfl, by simp [hcfg, hfb]⟩
  | fillRect x y w h c => exact ⟨_, _, rfl, rfl, by simp [hcfg, hfb]⟩
  | fill c => exact ⟨_, _, rfl, rfl, by simp [hcfg, hfb]⟩
  | drawText mirror x y c sx sy chars =>
    have hpen : SameCanvas (setPen x s) (setPen x s') := ⟨hcfg, hfb, rfl⟩
    exact ⟨_, _, rfl, rfl, (hpen.drawChars _ chars 0).fb⟩

/-- Settles O53: of the kinds of step `step_cases` lists, only a block reset and a performed operation touch the bus, and
`exec_busUntouched` says which operation. -/
theorem onlyInitAndShowReachTheBus : Obligations.OnlyInitAndShowReachTheBus := by
  intro s t h hne
  have htouched : ¬ busUntouched s t := by
    rw [busUntouched, not_and_or, not_and_or]
    exact hne
  obtain ⟨-, ⟨rest, hi, -⟩ | ⟨a, rest, -, -, rfl⟩ | ⟨a, m, rest, -, ⟨v, rfl⟩ | ⟨-, w, rfl⟩⟩ |
    ⟨hb, hn, i, hd, he⟩ | ⟨-, -, -, rfl⟩ | ⟨-, -, rfl⟩⟩ := step_cases h
  · exact .inl ⟨rest, hi⟩
  · exact absurd ⟨rfl, rfl, rfl⟩ htouched
  · exact absurd ⟨rfl, rfl, rfl⟩ htouched
  · exact absurd (busUntouched_receive w _) htouched
  · obtain ⟨rfl, ha⟩ | ⟨rfl, hp⟩ := (exec_busUntouched he).resolve_left htouched
    · exact .inr ⟨hb, hn, .inl ⟨header_of_decode_init hd, ha⟩⟩
    · exact .inr ⟨hb, hn, .inr ⟨header_of_decode_showPanel hd, hp⟩⟩
  · exact absurd (busUntouched_finish .illegal s) htouched
  · exact absurd ⟨rfl, rfl, rfl⟩ htouched
end

section
/-! PROOFS. The statements of spec/70_reset_and_hazards.md: what lands at a step, what every step keeps, and what an INIT
puts on the trace. Which steps write STATE is said once by `step_panel_cases`, and how many frames of which kind an INIT
sends by counts over its ROM entries. -/

namespace Sys2Proof.Machine

variable {s t : State} {rest : List Input}

/-! ### What lands at a step (R140, R145, R150) -/

/-- A `CMD` write does not land while BUSY is 1. -/
theorem noInput_of_cmdWrite (hb : s.busy = true) {e : Word × Moment} (hi : s.inputs = cmdWrite e :: rest) :
    noInput s := by
  have hwait : landsWhileBusy (cmdWrite e) = false := by simp [landsWhileBusy, isCmdWrite, accessOk]
  simp [noInput, nextInput, hi, hb, hwait]

/-- A block reset lands at any moment, ahead of an INIT's acceptance too. -/
theorem step_reset (hc : configOk s.cfg = true) (hi : s.inputs = .reset :: rest) :
    step s = .next (blockReset { s with inputs := rest }) := by
  have hn : nextInput s = some (.reset, rest) := nextInput_of_inputs hi fun _ => rfl
  rw [step, if_pos hc, advance, hn]
  rfl

/-- An idle block with no input waits. -/
theorem step_idle (hc : configOk s.cfg = true) (hb : s.busy = false) (hi : s.inputs = []) : step s = .next s := by
  have hn : nextInput s = none := by rw [nextInput, hi]
  simp [step, hc, advance, hn, hb]

theorem steps_of_step_self (h : step s = .next s) (n : Nat) : steps n s = .next s := by
  induction n with
  | zero => rfl
  | succ n ih => rw [steps_succ h, ih]

/-! ### What every step keeps (R144, R151) -/

@[simp] theorem receive_cfg (w : Word) (s : State) : (receive w s).cfg = s.cfg := by
  obtain ⟨-, h⟩ | ⟨-, h⟩ := receive_cases w s <;> rw [h]

/-- The packet of the latch, an operation or illegal, leaves the block as `ended` says (R73, R133). -/
theorem perform_ended (h : perform s = .next t) : ∃ code p m es n, t = ended code p m es n s := by
  have hillegal : ∃ code p m es n, finish .illegal s = ended code p m es n s :=
    ⟨.illegal, s.panel, s.fb, [], 0, (ended_finish .illegal s).symm⟩
  unfold perform at h
  split at h
  · obtain ⟨code, p, m, es, n, ht, -⟩ := exec_cases h
    exact ⟨code, p, m, es, n, ht⟩
  · cases h
    exact hillegal
  · cases h
    exact hillegal
  · cases h

theorem not_initAdmitted_of_ready (hp : s.panel = .ready) : ¬ initAdmitted s := by
  simp [initAdmitted, initAccepted_iff, hp]

/-- All that a step without a block reset can do to STATE: leave it, accept an INIT, or end one that was admitted, with
READY and OK or with UNINIT (R23, R109 to R112). -/
theorem step_panel_cases (h : step s = .next t) (hreset : ∀ rest, nextInput s ≠ some (.reset, rest)) :
    t.panel = s.panel ∨ (s.panel = .uninit ∧ t.panel = .initializing) ∨
      (initAdmitted s ∧ s.busy = true ∧ s.latch.hdr = 0x0100#16 ∧
        (t.panel = .ready ∧ t.result = .ok ∨ t.panel = .uninit)) := by
  obtain ⟨-, ⟨rest, hi, -⟩ | ⟨a, rest, -, hw, rfl⟩ | ⟨a, m, rest, -, ⟨v, rfl⟩ | ⟨-, w, rfl⟩⟩ |
    ⟨hb, -, i, hd, he⟩ | ⟨-, -, -, rfl⟩ | ⟨-, -, rfl⟩⟩ := step_cases h
  · exact absurd hi (hreset rest)
  · obtain ⟨-, -, hp⟩ := initWaits_iff.1 hw
    exact .inr (.inl ⟨hp, acceptInit_panel s⟩)
  · exact .inl rfl
  · exact .inl (receive_panel w _)
  · obtain ⟨code, p, m, es, n, rfl, -, -, ⟨rfl, ha, hp⟩ | ⟨-, rfl⟩⟩ := exec_cases he
    · exact .inr (.inr ⟨ha, hb, header_of_decode_init hd, hp.imp_right And.left⟩)
    · exact .inl rfl
  · exact .inl (finish_panel .illegal s)
  · exact .inl rfl

/-! ### The frames of an INIT (R106, R111, R153) -/

theorem countP_command_cmdFrames (cmd : Byte) (data : List Byte) : (cmdFrames cmd data).countP (fun f => !f.1) = 1 := by
  simp [cmdFrames]

theorem countP_data_cmdFrames (cmd : Byte) (data : List Byte) :
    (cmdFrames cmd data).countP (fun f => f.1) = data.length := by
  simp [cmdFrames]

/-- An INIT sends one command frame per ROM entry. -/
theorem countP_command_initFrames (p : Params) :
    (initFrames p).countP (fun f => !f.1) = (romEntries p.initRom).length := by
  simp [initFrames, List.countP_flatMap, Function.comp_def, countP_command_cmdFrames]

/-- An INIT sends one data frame per data byte of its ROM. -/
theorem countP_data_initFrames (p : Params) :
    (initFrames p).countP (fun f => f.1) = ((romEntries p.initRom).map fun e => e.data.length).sum := by
  simp only [initFrames, List.countP_flatMap, Function.comp_def, countP_data_cmdFrames]

/-- Each frame is a command frame or a data frame. -/
theorem length_initFrames (p : Params) : (initFrames p).length =
    (romEntries p.initRom).length + ((romEntries p.initRom).map fun e => e.data.length).sum := by
  rw [List.length_eq_countP_add_countP (fun f => !f.1), countP_command_initFrames, ← countP_data_initFrames]
  simp

theorem length_of_mem_cmdFrames {cmd : Byte} {data : List Byte} {f : Frame} (h : f ∈ cmdFrames cmd data) :
    f.2.length = 1 := by
  obtain rfl | ⟨b, -, rfl⟩ : f = (false, [cmd]) ∨ ∃ b ∈ data, (true, [b]) = f := by simpa [cmdFrames] using h
  · rfl
  · rfl

/-- Every frame of an INIT has one byte. -/
theorem length_of_mem_initFrames {p : Params} {f : Frame} (h : f ∈ initFrames p) : f.2.length = 1 := by
  obtain ⟨e, -, hf⟩ := List.mem_flatMap.1 h
  exact length_of_mem_cmdFrames hf

theorem byteCount_initFrames (p : Params) :
    ((initFrames p).map fun f => f.2.length).sum = (initFrames p).length := by
  rw [List.map_eq_replicate_iff.2 fun f hf => length_of_mem_initFrames hf, List.sum_replicate, smul_eq_mul, mul_one]

/-- The reset pulse is no frame and leaves `DC` alone (R104, R110). -/
theorem traceFramesFrom_pulseEvents (dc : Bool) (es : List Event) :
    traceFramesFrom dc none (pulseEvents ++ es) = traceFramesFrom dc none es := rfl

end Sys2Proof.Machine

open Sys2Proof Sys2Proof.Machine

/-- Settles O11: the write does not land, so the packet is performed, and no operation takes a host input. -/
theorem cmdWriteWaitsWhileBusy : Obligations.CmdWriteWaitsWhileBusy := by
  intro s w m rest hc hb hl hi
  have hstep : step s = perform s := step_perform hc hb (noInput_of_cmdWrite (e := (w, m)) hb hi)
  obtain ⟨t, ht⟩ := perform_next hl
  obtain ⟨code, p, fb, es, n, rfl⟩ := perform_ended ht
  exact ⟨_, hstep.trans ht, rfl, rfl, hstep⟩

/-- Settles O41: the events are the pulse and the frames of the ROM entries, each of one byte, and the projection of R104
reads these frames back. -/
theorem initFrameCounts : Obligations.InitFrameCounts := by
  intro s ha hc
  refine ⟨_, pulseEvents ++ framesEvents (initFrames s.cfg), exec_init_admitted ha, ?_, ?_, ?_, ?_, ?_⟩
  · rw [bringUp_of_busClean hc]
    rfl
  · rw [List.countP_append, countP_rstN_framesEvents]
    rfl
  · rw [List.countP_append, countP_isPin_framesEvents, length_initFrames]
    rfl
  · rw [List.countP_append, countP_isByte_framesEvents, byteCount_initFrames, length_initFrames]
    exact Nat.zero_add _
  · rw [traceFramesFrom_pulseEvents, traceFramesFrom_framesEvents]
    exact ⟨countP_command_initFrames s.cfg, countP_data_initFrames s.cfg, fun f hf => length_of_mem_initFrames hf⟩

/-- Settles O49: of the kinds of step `step_cases` lists, a block reset keeps the parameters and the others do not write
them. -/
theorem configurationIsFixed : Obligations.ConfigurationIsFixed := by
  intro s t h
  obtain ⟨-, ⟨rest, -, rfl⟩ | ⟨a, rest, -, -, rfl⟩ | ⟨a, m, rest, -, ⟨v, rfl⟩ | ⟨-, w, rfl⟩⟩ |
    ⟨-, -, i, -, he⟩ | ⟨-, -, -, rfl⟩ | ⟨-, -, rfl⟩⟩ := step_cases h
  · rfl
  · exact acceptInit_cfg s
  · rfl
  · exact receive_cfg w _
  · obtain ⟨code, p, m, es, n, rfl, -⟩ := exec_cases he
    rfl
  · exact finish_cfg .illegal s
  · rfl

/-- Settles O51: READY admits no INIT, and of the changes `step_panel_cases` lists only an INIT's end with OK leads to
it. -/
theorem readyLastsUntilReset : Obligations.ReadyLastsUntilReset := by
  intro s t h hreset
  obtain hkeep | ⟨hs, ht⟩ | ⟨ha, hb, hhdr, hend⟩ := step_panel_cases h hreset
  · exact ⟨hkeep.trans, fun hne ht => absurd (hkeep.symm.trans ht) hne⟩
  · exact ⟨fun hp => by simp [hs] at hp, fun _ hp => by simp [ht] at hp⟩
  · refine ⟨fun hp => absurd ha (not_initAdmitted_of_ready hp), fun _ hp => ⟨ha, hb, hhdr, ?_⟩⟩
    obtain ⟨-, hok⟩ | hu := hend
    · exact hok
    · simp [hu] at hp

/-- Settles O10: such a step answers the same state. -/
theorem partialPacketWaitsForEver : Obligations.PartialPacketWaitsForEver := fun _ n hc hb hi =>
  steps_of_step_self (step_idle hc hb hi) n

/-- Settles O18: the reset lands, and `blockReset` is R37's state under the same parameters. -/
theorem blockResetInput : Obligations.BlockResetInput := fun _ _ hc hi => step_reset hc hi
end
